-- ==== Sys2Proof/Word.lean ====
section
/-! DEFINITION. The machine word: every port word, timestamp and width is 32 bits (spec/20_memory.md R47,
spec/00_scope.md R11). -/

namespace Sys2Proof

/-- A 32-bit port word; also a `u32` timestamp, width or raw bound, and a binary32 pattern (R11, R12, R47). -/
abbrev Word := BitVec 32

/-- The number of values of a word, the modulus of `wrap32` (R15). -/
abbrev wordModulus : Nat := 2 ^ 32

end Sys2Proof
end

