-- ==== Sys2Proof/Syntax.lean ====
section
/-! DEFINITION. The six host commands of spec/30_encoding.md R64, one constructor for each row of
spec/opcode_table.json. The CAPTURE step is the block's own event and has no encoding (R76): it is
`State.capture` in Machine/Capture.lean, not an instruction. -/

namespace Sys2Proof

/-- A host command. `c` is the channel index (R62), a count and so a `Nat`; `outMin` and `outMax` are binary32
patterns, kept verbatim (R65). -/
inductive Instr
  | init
  | enable (c : Nat)
  | disable (c : Nat)
  | lastwidth (c : Nat)
  | setmap (c : Nat) (rawMin rawMax outMin outMax : Word)
  | getchannel (c : Nat)
deriving DecidableEq, Repr

/-- The command's mnemonic in spec/opcode_table.json. -/
def Instr.mnemonic : Instr → String
  | .init => "INIT"
  | .enable _ => "ENABLE"
  | .disable _ => "DISABLE"
  | .lastwidth _ => "LASTWIDTH"
  | .setmap _ _ _ _ _ => "SETMAP"
  | .getchannel _ => "GETCHANNEL"

/-- The channel a command names; INIT names none. -/
def Instr.channel : Instr → Option Nat
  | .init => none
  | .enable c => some c
  | .disable c => some c
  | .lastwidth c => some c
  | .setmap c _ _ _ _ => some c
  | .getchannel c => some c

end Sys2Proof
end

