-- ==== Sys2Proof/WellFormed.lean ====
section
/-! DEFINITION. Which commands have an encoding: the channel index fits the 8-bit field `cmd[7:0]`
(spec/30_encoding.md R62). Whether the index names a channel (`c < N`) is no matter of the encoding: a command
with `N <= c < 256` is well formed and answers its sentinel. -/

namespace Sys2Proof

/-- The channel index of a command word is `0 .. 255` (R62). -/
def channelFits (c : Nat) : Bool := decide (c < 256)

/-- A command that some word of the spec stands for. -/
def Instr.wellFormed : Instr → Bool
  | .init => true
  | .enable c => channelFits c
  | .disable c => channelFits c
  | .lastwidth c => channelFits c
  | .setmap c _ _ _ _ => channelFits c
  | .getchannel c => channelFits c

end Sys2Proof
end

