-- ==== Sys2Proof/Decode.lean ====
section
/-! DEFINITION. The command decoder and the encoder (spec/30_encoding.md). The decoder takes the words at the host
port, the first word of the next transaction first, and is total: it answers a command, an illegal transaction by
the name of what is wrong with it, or that the transaction is not whole yet. -/

namespace Sys2Proof

/-- Bits 31:24 of a command word: the opcode (R61). -/
def opcodeField (cmd : Word) : BitVec 8 := cmd.extractLsb' 24 8

/-- Bits 23:8 of a command word: reserved, must be zero (R61, R63). -/
def reservedField (cmd : Word) : BitVec 16 := cmd.extractLsb' 8 16

/-- Bits 7:0 of a command word: the channel index (R61, R62). -/
def channelField (cmd : Word) : BitVec 8 := cmd.extractLsb' 0 8

/-- How many operand words follow a command word: four for opcode `0x05`, none otherwise, whatever else the
command word holds (R60, R69, D27). -/
def operandCount (cmd : Word) : Nat := if opcodeField cmd = 0x05#8 then 4 else 0

/-- Why a command word is illegal (R63, R67). -/
inductive IllegalReason
  /-- the opcode is `0x00` or `0x07 .. 0xFF` -/
  | unknownOpcode
  /-- `cmd[23:8] != 0` -/
  | reservedNotZero
  /-- an INIT word with `cmd[7:0] != 0` -/
  | initChannelNotZero
  /-- the operand words are not four; the framing of `takeTransaction` rules it out -/
  | operandWordsMissing
deriving DecidableEq, Repr

/-- What the decoder makes of the words at the host port. -/
inductive Decoded
  /-- the words of the next transaction are not all there yet: the block does not decode (R60) -/
  | waiting
  /-- a legal command and the words after it -/
  | command (i : Instr) (rest : List Word)
  /-- an illegal transaction, what is wrong with it, and the words after it (R67) -/
  | illegal (why : IllegalReason) (rest : List Word)
deriving DecidableEq, Repr

/-- The next transaction: its command word, its operand words and the words after it; `none` while it is not
whole (R60, R69). -/
def takeTransaction : List Word → Option (Word × List Word × List Word)
  | [] => none
  | cmd :: ws =>
    if ws.length < operandCount cmd then none
    else some (cmd, ws.take (operandCount cmd), ws.drop (operandCount cmd))

/-- The command with opcode `op`, channel field `c` and the given operand words (R62 to R65, R67). -/
def decodeFields (op c : Nat) (ops : List Word) : Except IllegalReason Instr :=
  match op with
  | 0x01 => if c = 0 then .ok .init else .error .initChannelNotZero
  | 0x02 => .ok (.enable c)
  | 0x03 => .ok (.disable c)
  | 0x04 => .ok (.lastwidth c)
  | 0x05 =>
    match ops with
    | [op0, op1, op2, op3] => .ok (.setmap c op0 op1 op2 op3)
    | _ => .error .operandWordsMissing
  | 0x06 => .ok (.getchannel c)
  | _ => .error .unknownOpcode

/-- The command that a command word and its operand words stand for, or why they are illegal (R61, R63, R67). -/
def decodeCommand (cmd : Word) (ops : List Word) : Except IllegalReason Instr :=
  if reservedField cmd = 0 then decodeFields (opcodeField cmd).toNat (channelField cmd).toNat ops
  else .error .reservedNotZero

/-- The decoder: the next transaction's command and the words after it (R60, R67, R69). -/
def decode (ws : List Word) : Decoded :=
  match takeTransaction ws with
  | none => .waiting
  | some (cmd, ops, rest) =>
    match decodeCommand cmd ops with
    | .ok i => .command i rest
    | .error why => .illegal why rest

/-- The command word with opcode `op` and channel `c`, reserved bits zero (R61). -/
def commandWord (op c : Nat) : Word := BitVec.ofNat 32 (2 ^ 24 * op + c)

/-- The words of a command, command word first, operand words in the order OP0 to OP3 (R64, R65). -/
def encode : Instr → List Word
  | .init => [commandWord 0x01 0]
  | .enable c => [commandWord 0x02 c]
  | .disable c => [commandWord 0x03 c]
  | .lastwidth c => [commandWord 0x04 c]
  | .setmap c rawMin rawMax outMin outMax => [commandWord 0x05 c, rawMin, rawMax, outMin, outMax]
  | .getchannel c => [commandWord 0x06 c]

/-- A row of spec/opcode_table.json: mnemonic, match and mask of the command word, operand words. -/
structure OpcodeRow where
  mnemonic : String
  pattern : Word
  mask : Word
  operandWords : Nat
deriving DecidableEq, Repr

/-- A command word belongs to a row when the bits under the row's mask are the row's pattern. -/
def OpcodeRow.covers (r : OpcodeRow) (cmd : Word) : Bool := cmd &&& r.mask == r.pattern

/-- spec/opcode_table.json, row for row. -/
def opcodeTable : List OpcodeRow :=
  [ ⟨"INIT", 0x01000000#32, 0xFFFFFFFF#32, 0⟩,
    ⟨"ENABLE", 0x02000000#32, 0xFFFFFF00#32, 0⟩,
    ⟨"DISABLE", 0x03000000#32, 0xFFFFFF00#32, 0⟩,
    ⟨"LASTWIDTH", 0x04000000#32, 0xFFFFFF00#32, 0⟩,
    ⟨"SETMAP", 0x05000000#32, 0xFFFFFF00#32, 4⟩,
    ⟨"GETCHANNEL", 0x06000000#32, 0xFFFFFF00#32, 0⟩ ]

/-- The operand words `k, k + 1, ..` of a transaction whose bits are `w`, word `k` at bits `32 k + 31 : 32 k`. -/
def operandWordsFrom (w : Nat) (k : Nat) : Nat → List Word
  | 0 => []
  | n + 1 => BitVec.ofNat 32 (w / 2 ^ (32 * k)) :: operandWordsFrom w (k + 1) n

/-- The words of the transaction whose low `nbits` bits are those of `w` and whose other bits are zero: the command
word at bits 31:0 and, when its opcode asks for them, four operand words above it. -/
def tableWords (nbits w : Nat) : List Word :=
  let v := w % 2 ^ nbits
  let cmd := BitVec.ofNat 32 v
  cmd :: operandWordsFrom v 1 (operandCount cmd)

/-- The command the decoder reads from a transaction whose bits are `w`, bit 0 the least significant bit of the
command word. -/
def decodeTableWord (nbits w : Nat) : Option Instr :=
  match decode (tableWords nbits w) with
  | .command i _ => some i
  | .illegal _ _ => none
  | .waiting => none

end Sys2Proof
end

