-- ==== Sys2Proof/Config.lean ====
section
/-! DEFINITION. What an implementation fixes (the parameters of spec/00_scope.md R13, spec/10_state.md R44) and the
free values (draws) the spec leaves open. Every `opaque` constant has no body: no proof can see its value, so a
claim about the model holds for every value of it (log entries 1 to 4, 7 and 8). -/

namespace Sys2Proof

/-- A line level: the spec's `bool` 0 = Low, 1 = High (R14, R36). -/
inductive Level
  | low
  | high
deriving DecidableEq, Repr, Inhabited

/-- The direction the block asks of a line (R32). -/
inductive LineMode
  | input
  | output
deriving DecidableEq, Repr, Inhabited

/-- The parameters of one block, fixed for the whole run, and the level and timer inputs it finds at reset.
`N` is held as `N - 1 < 256`, so that every value of the type is one the spec admits: `1 <= N <= 256` (R10). -/
structure Params where
  /-- `N - 1` (R10, D2) -/
  lastChannel : Fin 256
  /-- direction of line `i` after reset, before any ENABLE or DISABLE (R13, D18) -/
  lineResetMode : Nat → LineMode
  /-- level line `i` drives while it is an output (R13, D19) -/
  disabledDriveLevel : Nat → Level
  /-- the level input of line `i` when the block leaves reset; the spec gives none (R43; log entry 3) -/
  levelAtReset : Nat → Level
  /-- the timer input when the block leaves reset; the spec gives none (R43; log entry 3) -/
  timerAtReset : Word

/-- The number of channel slots (R10). -/
def Params.N (p : Params) : Nat := p.lastChannel.val + 1

namespace Config

opaque lastChannel : Fin 256
opaque lineResetMode : Nat → LineMode
opaque disabledDriveLevel : Nat → Level
opaque levelAtReset : Nat → Level
opaque timerAtReset : Word

/-- The parameters of the block that `State.reset` describes: all of them free. -/
def params : Params :=
  { lastChannel := lastChannel, lineResetMode := lineResetMode, disabledDriveLevel := disabledDriveLevel,
    levelAtReset := levelAtReset, timerAtReset := timerAtReset }

/-- The draw `unmappedResult`: any 32-bit word, fresh at each draw number (R13, D12, I5). -/
opaque unmappedResult : Nat → Word

/-- Sign bit of the draw `nanResult` (R13, D11, I6). -/
opaque nanSign : Nat → Bool

/-- Fraction of the draw `nanResult`, less one: the fraction of a NaN is `1 .. 2^23 - 1` (R13, D11, I6). -/
opaque nanFractionPred : Nat → Fin 8388607

/-- The timer sample of a CAPTURE step that the schedule does not name: any `u32` (R38, D20, I7). -/
opaque timerSample : Nat → Word

/-- Which goes first when the schedule names no agent and both a CAPTURE step and a host transaction are ready:
`true` for the host (R127, I9). -/
opaque hostFirst : Nat → Bool

end Config
end Sys2Proof
end

