-- ==== Sys2Proof/Machine/State.lean ====
section
/-! DEFINITION. The state of the block (spec/10_state.md), plain data, and the state after reset (R43). The block has
no program counter, no memory, no flags and no exception registers (R41, R42, R45, R120), so none are here. The
block's input and output ports and the pending inputs of its environment stand beside its own state. -/

namespace Sys2Proof.Machine

/-- Channel record `ch[i]`, the capture register file (R20). -/
structure ChannelRecord where
  /-- whether the channel takes part in capture; written by ENABLE and DISABLE only (R21) -/
  enabled : Bool
  /-- the level at the last CAPTURE step in which the channel was enabled (R22, C3) -/
  lastLevel : Level
  /-- the timer sample of the last Low to High transition (R23) -/
  lastRisingTimestamp : Word
  /-- the width committed at the last High to Low transition (R24) -/
  lastPulseWidth : Word
deriving DecidableEq, Repr

/-- Mapping record `map[i]` (R27). -/
structure MappingRecord where
  rawMin : Word
  rawMax : Word
  /-- binary32 pattern, as SETMAP received it -/
  outMin : Word
  /-- binary32 pattern, as SETMAP received it -/
  outMax : Word
  /-- set once SETMAP has accepted a mapping (D12) -/
  valid : Bool
deriving DecidableEq, Repr

/-- All that the block holds, and the level input it sees, for one index `i`. -/
structure Slot where
  /-- `ch[i]` (R20) -/
  ch : ChannelRecord
  /-- `map[i]` (R27) -/
  map : MappingRecord
  /-- `mask[i]`, the change-notification arm bit of line `i` (R31) -/
  mask : Bool
  /-- `lineMode[i]`, an output port of the block (R32, R39) -/
  lineMode : LineMode
  /-- `level(i)`, the level input of line `i` (R36); no state of the block -/
  level : Level
deriving DecidableEq, Repr

/-- One turn of the total order of steps (R53): who takes the next step. The environment's turns say what it
changes (R127). -/
inductive Turn
  /-- the host command port performs its next transaction -/
  | host
  /-- the capture engine takes a CAPTURE step -/
  | capture
  /-- the environment drives the level input of line `i` to `v` -/
  | level (i : Nat) (v : Level)
  /-- the environment moves the timer input to `t` -/
  | timer (t : Word)
deriving DecidableEq, Repr

/-- The block, its ports and its pending inputs. -/
structure State where
  /-- the channel slots `0 .. N - 1`; their number is the parameter `N` (R10, R20; log entry 1) -/
  slots : List Slot
  /-- INIT has armed the notification subsystem (R33) -/
  notifyArmed : Bool
  /-- the coalesced change-notification request (R34) -/
  pending : Bool
  /-- `now()`, the timer input (R37); no state of the block -/
  timer : Word
  /-- host port, words the host has sent or will send, next one first (R60; log entry 6) -/
  hostIn : List Word
  /-- host port, the word the last `respond` put on it; `none` before the first (R17, R66; log entry 5) -/
  response : Option Word
  /-- the turns to come, next one first (R53, R127; log entry 7) -/
  schedule : List Turn
  /-- the number of free values drawn so far; the model's own (log entry 8) -/
  draws : Nat
deriving DecidableEq, Repr

/-- Reasons to stop with a fault: none. The block raises no exception, has no fault state and never halts
(R120, R122, R140), so nothing raises one and the type has no constructor. -/
inductive Fault
deriving DecidableEq, Repr

/-- Reasons to have no meaning for an instruction. -/
inductive Refusal
  /-- Raised by an arm of `exec` whose instruction has no meaning yet (safe: the run stops). No arm raises it. -/
  | notModelled (mnemonic : String)
deriving DecidableEq, Repr

/-- A channel record after reset: zero-initialised (R43). -/
def ChannelRecord.reset : ChannelRecord :=
  { enabled := false, lastLevel := .low, lastRisingTimestamp := 0, lastPulseWidth := 0 }

/-- A mapping record after reset: zero-initialised, no mapping accepted; +0.0 is the pattern 0 (R43). -/
def MappingRecord.reset : MappingRecord :=
  { rawMin := 0, rawMax := 0, outMin := 0, outMax := 0, valid := false }

/-- Slot `i` after reset: the line mode is the parameter `lineResetMode`, the level input whatever the line shows
(R43, D18). -/
def Slot.reset (p : Params) (i : Nat) : Slot :=
  { ch := .reset, map := .reset, mask := false, lineMode := p.lineResetMode i, level := p.levelAtReset i }

/-- Slots `i, i + 1, ..` after reset, `n` of them. -/
def resetSlots (p : Params) (i : Nat) : Nat → List Slot
  | 0 => []
  | n + 1 => Slot.reset p i :: resetSlots p (i + 1) n

/-- The block with parameters `p` right after reset (R43, R145): it waits for the first host transaction. -/
def State.resetWith (p : Params) : State :=
  { slots := resetSlots p 0 p.N, notifyArmed := false, pending := false, timer := p.timerAtReset,
    hostIn := [], response := none, schedule := [], draws := 0 }

/-- The block right after reset, every parameter free (R13, R43). -/
def State.reset : State := State.resetWith Config.params

end Sys2Proof.Machine
end

