-- ==== Sys2Proof/Machine/Flags.lean ====
section
/-! DEFINITION. The block has no condition codes and no status flags (spec/10_state.md R42). What stands in for them:
`lastLevel`, the one per-channel flag (R22), whose comparison with the sampled level is the edge detector of
spec/40_capture.md R84, and the condition under which a CAPTURE step is enabled (spec/60_exceptions.md R125). -/

namespace Sys2Proof.Machine

/-- A rising edge: High sampled where Low was recorded (R84, source step 3). -/
def risingEdge (recorded sampled : Level) : Bool := recorded == .low && sampled == .high

/-- A falling edge: Low sampled where High was recorded (R84, source step 5). -/
def fallingEdge (recorded sampled : Level) : Bool := recorded == .high && sampled == .low

/-- A CAPTURE step is enabled exactly when `pending = 1` and `notifyArmed = 1` (R125). -/
def State.captureEnabled (s : State) : Bool := s.pending && s.notifyArmed

end Sys2Proof.Machine
end

