-- ==== Sys2Proof/Machine/Operands.lean ====
section
/-! DEFINITION. The forms of operand and response words (spec/30_encoding.md R65, R66): `u32` as it stands, `bool` as
1 or 0, and binary32 patterns (spec/20_memory.md R47), with `asf32` and `bits32` of spec/00_scope.md R16. -/

namespace Sys2Proof.Machine

/-- The response of SETMAP: the source's `bool` (R66). -/
def boolWord (b : Bool) : Word := if b then 1 else 0

/-- A binary32 value. A finite one is its sign and its magnitude counted in the least subnormal, `2^-149`: every
finite binary32 is a whole number of these units, so sums are exact integers (log entry 12). A NaN has no payload
here: the spec never reports a particular one (R108, D11). -/
inductive F32
  | nan
  | inf (neg : Bool)
  | fin (neg : Bool) (units : Nat)
deriving DecidableEq, Repr

/-- One in units of `2^-149`. -/
abbrev f32Unit : Nat := 2 ^ 149

/-- The least magnitude, in units, beyond the finite binary32 values: `2^128`. -/
abbrev f32Overflow : Nat := 2 ^ 128 * f32Unit

/-- Bits 30:23 of a binary32 pattern: the biased exponent (R47). -/
def exponentField (w : Word) : Nat := (w.extractLsb' 23 8).toNat

/-- Bits 22:0 of a binary32 pattern: the fraction (R47). -/
def fractionField (w : Word) : Nat := (w.extractLsb' 0 23).toNat

/-- The binary32 value a word encodes (R16, R47, K1). Subnormals keep their value (R106). -/
def asf32 (w : Word) : F32 :=
  if exponentField w = 255 then
    if fractionField w = 0 then .inf w.msb else .nan
  else if exponentField w = 0 then .fin w.msb (fractionField w)
  else .fin w.msb ((2 ^ 23 + fractionField w) * 2 ^ (exponentField w - 1))

/-- The sign bit of a pattern, as a number. -/
def signBits (neg : Bool) : Nat := if neg then 2 ^ 31 else 0

/-- By how many binary places the significand of a magnitude of `units` is shifted: none below `2^24`. -/
def ulpShift (units : Nat) : Nat := units.log2 - 23

/-- Bits 30:0 of the pattern of a finite magnitude. -/
def magnitudeBits (units : Nat) : Nat := 2 ^ 23 * ulpShift units + units / 2 ^ ulpShift units

/-- The encoding of a binary32 value (R16, R47); a NaN has many, so none is given here (D11). -/
def bits32 : F32 → Option Word
  | .nan => none
  | .inf neg => some (BitVec.ofNat 32 (signBits neg + 255 * 2 ^ 23))
  | .fin neg units => some (BitVec.ofNat 32 (signBits neg + magnitudeBits units))

/-- A word is a NaN encoding: exponent all ones, fraction not zero (R13, D11). -/
def isNaNPattern (w : Word) : Bool := exponentField w == 255 && fractionField w != 0

/-- The NaN encoding with the given sign and fraction `k + 1`: every NaN encoding is one of these. -/
def nanPattern (neg : Bool) (k : Fin 8388607) : Word :=
  BitVec.ofNat 32 (signBits neg + 255 * 2 ^ 23 + (k.val + 1))

/-- The draw `nanResult` number `n`: some NaN encoding (R13, D11, I6). -/
def nanResult (n : Nat) : Word := nanPattern (Config.nanSign n) (Config.nanFractionPred n)

end Sys2Proof.Machine
end

