-- ==== Sys2Proof/Machine/Ops.lean ====
section
/-! DEFINITION. The operations the meanings share: register access by channel index, the response, the draws and the
wrap-around subtraction (spec/00_scope.md R15, R17). The block takes no exception and has none to return from
(spec/60_exceptions.md R120, R129, R130): the sentinel response of an invalid request is `respond 0`. The block has
no memory (spec/20_memory.md R45). -/

namespace Sys2Proof.Machine

/-- `wrap32(v) = v mod 2^32` for every integer `v` (R15). -/
def wrap32 (v : Int) : Word := BitVec.ofInt 32 v

/-- `N`, the number of channel slots (R10). -/
def State.N (s : State) : Nat := s.slots.length

/-- `valid(c)` (R17): the index names a channel. -/
def State.valid (s : State) (c : Nat) : Bool := decide (c < s.N)

/-- Write slot `c`; an invalid index writes nothing (R81, R82, R100). -/
def State.updateSlot (s : State) (c : Nat) (f : Slot → Slot) : State :=
  { s with slots := s.slots.modify c f }

/-- `respond(w)`: put the response word on the host port (R17, R66). -/
def State.respond (s : State) (w : Word) : State := { s with response := some w }

/-- Count one drawn free value, so that the next draw is a fresh one (log entry 8). -/
def State.nextDraw (s : State) : State := { s with draws := s.draws + 1 }

/-- Answer with the draw `unmappedResult` (R101, D12). -/
def State.respondUnmapped (s : State) : State := (s.respond (Config.unmappedResult s.draws)).nextDraw

/-- Answer with the draw `nanResult` (R101, D11). -/
def State.respondNaN (s : State) : State := (s.respond (nanResult s.draws)).nextDraw

/-- Answer with `bits32` of a binary32 value, a NaN by its draw (R101, R108). -/
def State.respondF32 (s : State) (v : F32) : State :=
  match bits32 v with
  | some w => s.respond w
  | none => s.respondNaN

/-- The level the block drives on line `i`: `disabledDriveLevel` while the line is an output, nothing while it is an
input (R32, R39). -/
def State.lineDrive (p : Params) (s : State) (i : Nat) : Option Level :=
  match s.slots[i]? with
  | some sl => if sl.lineMode = .output then some (p.disabledDriveLevel i) else none
  | none => none

end Sys2Proof.Machine
end

