-- ==== Sys2Proof/Machine/Capture.lean ====
section
/-! DEFINITION. The capture family (spec/40_capture.md): the meanings of INIT, ENABLE, DISABLE and LASTWIDTH, and the
CAPTURE step, which no host command starts. -/

namespace Sys2Proof.Machine

/-- ENABLE's writes to a slot (R81): `enabled`, `lineMode` and `mask`; the captured values stay (D22). -/
def Slot.enable (sl : Slot) : Slot :=
  { sl with ch := { sl.ch with enabled := true }, lineMode := .input, mask := true }

/-- DISABLE's writes to a slot (R82): `enabled`, `mask` and `lineMode`; the captured values stay. -/
def Slot.disable (sl : Slot) : Slot :=
  { sl with ch := { sl.ch with enabled := false }, mask := false, lineMode := .output }

/-- INIT (R80): arms the notification subsystem. -/
def execInit (s : State) : Host.Outcome State Fault Refusal :=
  .next ({ s with notifyArmed := true }.respond 0)

/-- ENABLE (R81); an invalid index is a no-op. DISABLE and ENABLE leave `pending` alone (D23). -/
def execEnable (c : Nat) (s : State) : Host.Outcome State Fault Refusal :=
  .next ((s.updateSlot c Slot.enable).respond 0)

/-- DISABLE (R82); an invalid index is a no-op. -/
def execDisable (c : Nat) (s : State) : Host.Outcome State Fault Refusal :=
  .next ((s.updateSlot c Slot.disable).respond 0)

/-- What LASTWIDTH answers (R83): the last committed width, 0 for an invalid index. -/
def State.lastWidth (s : State) (c : Nat) : Word :=
  match s.slots[c]? with
  | some sl => sl.ch.lastPulseWidth
  | none => 0

/-- LASTWIDTH (R83): no side effects. -/
def execLastwidth (c : Nat) (s : State) : Host.Outcome State Fault Refusal :=
  .next (s.respond (s.lastWidth c))

/-- A CAPTURE step's writes to the record of an enabled channel, given the sampled level and the step's timer sample
(R84, source steps 3 to 6). -/
def ChannelRecord.sample (ch : ChannelRecord) (level : Level) (now : Word) : ChannelRecord :=
  if risingEdge ch.lastLevel level then
    { ch with lastRisingTimestamp := now, lastLevel := .high }
  else if fallingEdge ch.lastLevel level then
    { ch with lastPulseWidth := wrap32 ((now.toNat : Int) - ch.lastRisingTimestamp.toNat), lastLevel := .low }
  else ch

/-- A CAPTURE step's visit to a slot (R84): a disabled channel is skipped, its record frozen (R25). -/
def Slot.capture (now : Word) (sl : Slot) : Slot :=
  if sl.ch.enabled then { sl with ch := sl.ch.sample sl.level now } else sl

/-- CAPTURE (R84): clear `pending`, read the timer once, visit every channel with that one sample. The visits touch
one record each, so they are made all at once (R85). -/
def State.capture (s : State) : State :=
  { s with pending := false, slots := s.slots.map (Slot.capture s.timer) }

end Sys2Proof.Machine
end

