-- ==== Sys2Proof/Machine/Float.lean ====
section
/-! DEFINITION. Binary32 arithmetic: exact result, then one rounding to nearest with ties to even
(spec/00_scope.md R16, spec/41_mapper.md R105 to R108). No flags, no extended precision, no flush to zero
(R106, R107). -/

namespace Sys2Proof.Machine

/-- `num / den` rounded to a whole number, to nearest with ties to even. -/
def divNearestEven (num den : Nat) : Nat :=
  let q := num / den
  let r := num % den
  if 2 * r < den then q
  else if den < 2 * r then q + 1
  else q + q % 2

/-- `num / den` units rounded to a 24-bit significand, to nearest with ties to even; the exponent is not bounded
above. Below `2^24` units the spacing is one unit, subnormal or not. -/
def roundUnits (num den : Nat) : Nat :=
  let ulp := 2 ^ ulpShift (num / den)
  divNearestEven num (den * ulp) * ulp

/-- The binary32 nearest to plus or minus `num / den` units; an overflow gives an infinity (R106, R107). -/
def roundF32 (neg : Bool) (num den : Nat) : F32 :=
  if roundUnits num den < f32Overflow then .fin neg (roundUnits num den) else .inf neg

/-- `f32(v)`: the binary32 nearest to an integer (R16, R105). -/
def f32 (v : Int) : F32 := roundF32 (decide (v < 0)) (f32Unit * v.natAbs) 1

/-- The exact value of a finite binary32 in units. -/
def signedUnits (neg : Bool) (units : Nat) : Int := if neg then -(units : Int) else units

/-- The binary32 nearest to a whole number of units that is the exact sum of two finite values: an exact zero sum is
`+0` unless both operands are `-0` (R108). -/
def roundSum (bothNegative : Bool) (sum : Int) : F32 :=
  if sum = 0 then .fin bothNegative 0 else roundF32 (decide (sum < 0)) sum.natAbs 1

/-- `f32add(a, b)` (R16, R108). -/
def f32add : F32 → F32 → F32
  | .nan, _ => .nan
  | .inf _, .nan => .nan
  | .inf a, .inf b => if a = b then .inf a else .nan
  | .inf a, .fin _ _ => .inf a
  | .fin _ _, .nan => .nan
  | .fin _ _, .inf b => .inf b
  | .fin a x, .fin b y => roundSum (a && b) (signedUnits a x + signedUnits b y)

/-- The value with the other sign. -/
def f32neg : F32 → F32
  | .nan => .nan
  | .inf a => .inf (!a)
  | .fin a x => .fin (!a) x

/-- `f32sub(a, b)`: the sum of `a` and `b` with its sign turned (R16). -/
def f32sub (a b : F32) : F32 := f32add a (f32neg b)

/-- `f32mul(a, b)` (R16, R108). -/
def f32mul : F32 → F32 → F32
  | .nan, _ => .nan
  | .inf _, .nan => .nan
  | .inf a, .inf b => .inf (a ^^ b)
  | .inf a, .fin b y => if y = 0 then .nan else .inf (a ^^ b)
  | .fin _ _, .nan => .nan
  | .fin a x, .inf b => if x = 0 then .nan else .inf (a ^^ b)
  | .fin a x, .fin b y => roundF32 (a ^^ b) (x * y) f32Unit

/-- `f32div(a, b)` (R16, R108). -/
def f32div : F32 → F32 → F32
  | .nan, _ => .nan
  | .inf _, .nan => .nan
  | .inf _, .inf _ => .nan
  | .inf a, .fin b _ => .inf (a ^^ b)
  | .fin _ _, .nan => .nan
  | .fin a _, .inf b => .fin (a ^^ b) 0
  | .fin a x, .fin b y =>
    if y = 0 then (if x = 0 then .nan else .inf (a ^^ b))
    else roundF32 (a ^^ b) (f32Unit * x) y

/-- `f32eq(a, b)`: the two zeros are equal, a NaN equals nothing (R16, D13). -/
def f32eq : F32 → F32 → Bool
  | .inf a, .inf b => a == b
  | .fin a x, .fin b y => if x = 0 then y == 0 else a == b && x == y
  | .nan, _ => false
  | .inf _, .nan => false
  | .inf _, .fin _ _ => false
  | .fin _ _, .nan => false
  | .fin _ _, .inf _ => false

end Sys2Proof.Machine
end

