-- ==== Sys2Proof/Machine/Mapper.lean ====
section
/-! DEFINITION. The mapper family (spec/41_mapper.md): the meanings of SETMAP and GETCHANNEL and the numerics of the
mapping. -/

namespace Sys2Proof.Machine

/-- The mapping parameters SETMAP refuses (R100, `InvalidMappingParameters` of R121): an empty raw domain, or output
bounds equal as binary32 values (D13). -/
def degenerateMapping (rawMin rawMax outMin outMax : Word) : Bool :=
  rawMin == rawMax || f32eq (asf32 outMin) (asf32 outMax)

/-- SETMAP accepts (R100). -/
def State.acceptsMapping (s : State) (c : Nat) (rawMin rawMax outMin outMax : Word) : Bool :=
  s.valid c && !degenerateMapping rawMin rawMax outMin outMax

/-- SETMAP (R100): store the four words verbatim and set `valid`, or write nothing. -/
def execSetmap (c : Nat) (rawMin rawMax outMin outMax : Word) (s : State) : Host.Outcome State Fault Refusal :=
  .next
    (if s.acceptsMapping c rawMin rawMax outMin outMax then
      (s.updateSlot c fun sl =>
        { sl with map := { rawMin := rawMin, rawMax := rawMax, outMin := outMin, outMax := outMax, valid := true } }).respond
          (boolWord true)
    else s.respond (boolWord false))

/-- `A` of R102: the width's distance from `rawMin`, exact and signed (R103), then rounded. -/
def mapA (w : Word) (m : MappingRecord) : F32 := f32 ((w.toNat : Int) - m.rawMin.toNat)

/-- `D` of R102: the length of the raw domain, exact and signed (R103), then rounded. -/
def mapD (m : MappingRecord) : F32 := f32 ((m.rawMax.toNat : Int) - m.rawMin.toNat)

/-- `R` of R102: the output range. -/
def mapR (m : MappingRecord) : F32 := f32sub (asf32 m.outMax) (asf32 m.outMin)

/-- `mapEval(w, m)` (R102): `(w - rawMin) * (outMax - outMin) / (rawMax - rawMin) + outMin`, left to right, each
operation rounded once, the result not clamped (R104). -/
def mapEval (w : Word) (m : MappingRecord) : F32 :=
  f32add (f32div (f32mul (mapA w m) (mapR m)) (mapD m)) (asf32 m.outMin)

/-- The state after GETCHANNEL has answered (R101): the sentinel `+0.0` for an invalid index, the draw
`unmappedResult` where no mapping was ever accepted, else the mapped width. -/
def State.getChannel (s : State) (c : Nat) : State :=
  match s.slots[c]? with
  | none => s.respond 0
  | some sl =>
    if sl.map.valid then s.respondF32 (mapEval sl.ch.lastPulseWidth sl.map) else s.respondUnmapped

/-- GETCHANNEL (R101). -/
def execGetchannel (c : Nat) (s : State) : Host.Outcome State Fault Refusal :=
  .next (s.getChannel c)

end Sys2Proof.Machine
end

