-- ==== Sys2Proof/Machine/Dispatch.lean ====
section
/-! DEFINITION. The meaning of every host command, one arm per constructor of `Instr`. -/

namespace Sys2Proof.Machine

def exec (i : Instr) (s : State) : Host.Outcome State Fault Refusal :=
  match i with
  | .init => Sys2Proof.Machine.execInit s
  | .enable c => Sys2Proof.Machine.execEnable c s
  | .disable c => Sys2Proof.Machine.execDisable c s
  | .lastwidth c => Sys2Proof.Machine.execLastwidth c s
  | .setmap c rawMin rawMax outMin outMax => Sys2Proof.Machine.execSetmap c rawMin rawMax outMin outMax s
  | .getchannel c => Sys2Proof.Machine.execGetchannel c s

end Sys2Proof.Machine
end

