-- ==== Sys2Proof/Machine/Environment.lean ====
section
/-! DEFINITION. The environment's steps (spec/60_exceptions.md R124, R127): a change of a level input, which notifies
the block when the line is armed, and a change of the timer input. -/

namespace Sys2Proof.Machine

/-- The environment drives the level input of line `i` to `v`. A change on an armed line sets `pending`, whatever
`notifyArmed` is; a change on a line that is not armed has no effect on the block; driving a line to the level it
has, or a line the block does not have, changes nothing (R124; log entry 9). -/
def State.setLevel (s : State) (i : Nat) (v : Level) : State :=
  match s.slots[i]? with
  | none => s
  | some sl =>
    if sl.level = v then s
    else { s.updateSlot i (fun x => { x with level := v }) with pending := s.pending || sl.mask }

/-- The environment moves the timer input (R127, R135): the block sees it at its next CAPTURE step only. -/
def State.setTimer (s : State) (t : Word) : State := { s with timer := t }

/-- The free-running timer moves to a value nothing constrains: the sample of a CAPTURE step that no scheduled timer
turn stands before (R38, D20; log entry 4). -/
def State.drawTimer (s : State) : State := (s.setTimer (Config.timerSample s.draws)).nextDraw

end Sys2Proof.Machine
end

