-- ==== Sys2Proof/Machine/Turns.lean ====
section
/-! DEFINITION. What each agent does in its turn (spec/60_exceptions.md R127): the host port performs one whole
transaction, the capture engine takes a CAPTURE step if one is enabled, the environment changes an input. -/

namespace Sys2Proof.Machine

/-- The host has all the words of its next transaction at the port (R60). -/
def State.hostReady (s : State) : Bool := decode s.hostIn != .waiting

/-- The host port's turn (R60): take the next transaction off the port and perform it. An illegal one writes nothing
and answers 0 (R67); one whose operand words are not all there waits (R60; log entry 10). -/
def State.hostTurn (s : State) : Host.Outcome State Fault Refusal :=
  match decode s.hostIn with
  | .waiting => .next s
  | .command i rest => exec i { s with hostIn := rest }
  | .illegal _ rest => .next ({ s with hostIn := rest }.respond 0)

/-- The capture engine's turn (R125): a CAPTURE step if one is enabled, nothing otherwise. -/
def State.captureTurn (s : State) : State := if s.captureEnabled then s.capture else s

/-- One scheduled turn. -/
def State.takeTurn (s : State) (turn : Turn) : Host.Outcome State Fault Refusal :=
  match turn with
  | .host => s.hostTurn
  | .capture => .next s.captureTurn
  | .level i v => .next (s.setLevel i v)
  | .timer t => .next (s.setTimer t)

/-- The next step when the schedule names none: the environment drives no more lines, and an agent that can move
does. When both can, a free value chooses (R127); the timer sample of a CAPTURE step is free (R38). When neither
can, the state stays as it is: it is quiescent (R140), or a transaction begun waits for words that never come (log
entries 7 and 10). -/
def State.unscheduledTurn (s : State) : Host.Outcome State Fault Refusal :=
  if s.captureEnabled then
    if s.hostReady && Config.hostFirst s.draws then s.nextDraw.hostTurn
    else .next s.nextDraw.drawTimer.capture
  else if s.hostReady then s.hostTurn
  else .next s

end Sys2Proof.Machine
end

