-- ==== Sys2Proof/Machine/Step.lean ====
section
/-! DEFINITION. The step function: one step of the total order of steps (spec/20_memory.md R53), and the placing of a
transaction where the next step fetches it. -/

namespace Sys2Proof.Machine

/-- One step: the next scheduled turn, or, when none is scheduled, a turn of an agent that can move. -/
def step (s : State) : Host.Outcome State Fault Refusal :=
  match s.schedule with
  | turn :: rest => State.takeTurn { s with schedule := rest } turn
  | [] => s.unscheduledTurn

/-- `s` with the transaction whose bits are `w` next at the host port and the host's turn next, so that the next step
performs exactly it. -/
def State.withFetchWord (s : State) (nbits w : Nat) : State :=
  { s with hostIn := tableWords nbits w ++ s.hostIn, schedule := .host :: s.schedule }

end Sys2Proof.Machine
end

