-- ==== Sys2Proof/Machine/Assembly.lean ====
section
/-! DEFINITION. The host assembly notation (spec/30_encoding.md R70, R71), the pseudo-commands and their expansions
(R72 to R75), and the loading of a listing into the pending inputs of a state. -/

namespace Sys2Proof.Machine

/-- `ENABLE` of a list of channels: one ENABLE each, in list order (R72). -/
def enableList (cs : List Nat) : List Instr := cs.map .enable

/-- `DISABLE` of a list of channels: one DISABLE each, in list order (R73). -/
def disableList (cs : List Nat) : List Instr := cs.map .disable

/-- The default `outMin`, -1.0 (R74, K3). -/
def defaultOutMin : Word := 0xBF800000#32

/-- The default `outMax`, 1.0 (R74, K3). -/
def defaultOutMax : Word := 0x3F800000#32

/-- `SETMAP c, rawMin, rawMax` (R74). -/
def setmapDefault (c : Nat) (rawMin rawMax : Word) : Instr := .setmap c rawMin rawMax defaultOutMin defaultOutMax

/-- `SETMAP c, rawMin, rawMax, outMin` (R74). -/
def setmapDefaultMax (c : Nat) (rawMin rawMax outMin : Word) : Instr := .setmap c rawMin rawMax outMin defaultOutMax

/-- A line of a listing: the host commands a command line expands to, one transaction each, `CAPTURE @ t` (R71), or
a change of a level input by the environment (the `env` lines of spec/95_test_vectors.md). -/
inductive ListingLine
  | commands (is : List Instr)
  | capture (t : Word)
  | level (i : Nat) (v : Level)
deriving DecidableEq, Repr

/-- Append a listing line to the pending inputs: its words to the host port, its turns to the schedule. -/
def State.load (s : State) : ListingLine → State
  | .commands is =>
    { s with hostIn := s.hostIn ++ is.flatMap encode, schedule := s.schedule ++ List.replicate is.length .host }
  | .capture t => { s with schedule := s.schedule ++ [.timer t, .capture] }
  | .level i v => { s with schedule := s.schedule ++ [.level i v] }

/-! ### Reading a line of text -/

/-- The text at every `sep` cut, `sep` left out. -/
def splitAtChar (sep : Char) : List Char → List (List Char)
  | [] => [[]]
  | ch :: rest =>
    match splitAtChar sep rest with
    | [] => [[ch]]
    | part :: parts => if ch = sep then [] :: part :: parts else (ch :: part) :: parts

/-- The text without blanks at its ends. -/
def trimBlanks (cs : List Char) : List Char :=
  ((cs.dropWhile (· = ' ')).reverse.dropWhile (· = ' ')).reverse

/-- The text before `->`: what follows names a response for the listing's reader only (R70). -/
def beforeArrow : List Char → List Char
  | '-' :: '>' :: _ => []
  | [] => []
  | ch :: rest => ch :: beforeArrow rest

/-- The value of a digit below `base`. -/
def digitValue (base : Nat) (ch : Char) : Option Nat :=
  let n := ch.toNat
  let v := if 48 ≤ n ∧ n ≤ 57 then n - 48 else if 97 ≤ n ∧ n ≤ 102 then n - 87 else if 65 ≤ n ∧ n ≤ 70 then n - 55 else base
  if v < base then some v else none

/-- The value of a run of digits, going on from `acc`; `none` at a character that is no digit. -/
def readDigits (base acc : Nat) : List Char → Option Nat
  | [] => some acc
  | ch :: rest =>
    match digitValue base ch with
    | some v => readDigits base (acc * base + v) rest
    | none => none

/-- A decimal or `0x` hexadecimal integer literal (R70). -/
def readNat : List Char → Option Nat
  | [] => none
  | '0' :: 'x' :: [] => none
  | '0' :: 'x' :: digits => readDigits 16 0 digits
  | digits => readDigits 10 0 digits

/-- An integer literal below `bound`. -/
def readNatBelow (bound : Nat) (cs : List Char) : Option Nat :=
  match readNat cs with
  | some n => if n < bound then some n else none
  | none => none

/-- The channel literal of a command line: `0 .. 255` (R70). -/
def readChannel (cs : List Char) : Option Nat := readNatBelow 256 cs

/-- A `u32` literal: `0 .. 2^32 - 1` (R70). -/
def readWord (cs : List Char) : Option Word := (readNatBelow wordModulus cs).map (BitVec.ofNat 32)

/-- The pattern of the binary32 nearest to `digits * 10^up / 10^down`, ties to even (R70). -/
def decimalPattern (neg : Bool) (digits up down : Nat) : Option Word :=
  bits32 (roundF32 neg (f32Unit * (digits * 10 ^ up)) (10 ^ down))

/-- The digits of a decimal literal, its point left out, and how many of them stand after the point. -/
def readPoint (cs : List Char) : Option (Nat × Nat) :=
  match splitAtChar '.' cs with
  | [whole] => if whole = [] then none else (readDigits 10 0 whole).map fun n => (n, 0)
  | [whole, part] =>
    if whole ++ part = [] then none else (readDigits 10 0 (whole ++ part)).map fun n => (n, part.length)
  | _ => none

/-- An unsigned decimal floating literal: digits, perhaps a point, perhaps a decimal exponent after `e` (R70; log
entry 20). -/
def readDecimal (neg : Bool) (cs : List Char) : Option Word :=
  match splitAtChar 'e' cs with
  | [num] => (readPoint num).bind fun p => decimalPattern neg p.1 0 p.2
  | [num, '-' :: x] =>
    if x = [] then none
    else (readPoint num).bind fun p => (readDigits 10 0 x).bind fun e => decimalPattern neg p.1 0 (p.2 + e)
  | [num, x] =>
    if x = [] then none
    else (readPoint num).bind fun p => (readDigits 10 0 x).bind fun e => decimalPattern neg p.1 e p.2
  | _ => none

/-- A float literal: decimal, or a `0x`-prefixed 32-bit encoding (R70). -/
def readFloat : List Char → Option Word
  | '0' :: 'x' :: digits => readWord ('0' :: 'x' :: digits)
  | '-' :: rest => readDecimal true rest
  | cs => readDecimal false cs

/-- The channel list between braces of R72 and R73; the empty list is empty. -/
def readChannels (cs : List Char) : Option (List Nat) :=
  if trimBlanks cs = [] then some []
  else (splitAtChar ',' cs).mapM fun part => readChannel (trimBlanks part)

/-- The operand of ENABLE and DISABLE: one channel, or a list of them between braces (R70, R72, R73). -/
def readChannelOperand (cs : List Char) : Option (List Nat) :=
  match cs with
  | ch :: rest =>
    if ch = Char.ofNat 123 then
      if rest.getLast? = some (Char.ofNat 125) then readChannels rest.dropLast else none
    else (readChannel cs).map fun c => [c]
  | [] => none

/-- The operands of SETMAP, the last one or two of them by default (R70, R74). -/
def readSetmap (operands : List (List Char)) : Option Instr :=
  match operands with
  | [c, lo, hi] => do return setmapDefault (← readChannel c) (← readWord lo) (← readWord hi)
  | [c, lo, hi, a] => do return setmapDefaultMax (← readChannel c) (← readWord lo) (← readWord hi) (← readFloat a)
  | [c, lo, hi, a, b] =>
    do return .setmap (← readChannel c) (← readWord lo) (← readWord hi) (← readFloat a) (← readFloat b)
  | _ => none

/-- One line of a listing (R70 to R75); `none` where it is no line of the notation. -/
def readLine (line : List Char) : Option ListingLine :=
  let text := trimBlanks (beforeArrow line)
  let name := text.takeWhile (· ≠ ' ')
  let operands := trimBlanks (text.dropWhile (· ≠ ' '))
  if name = "INIT".toList then
    if operands = [] then some (.commands [.init]) else none
  else if name = "ENABLE".toList then (readChannelOperand operands).map fun cs => .commands (enableList cs)
  else if name = "DISABLE".toList then (readChannelOperand operands).map fun cs => .commands (disableList cs)
  else if name = "LASTWIDTH".toList then (readChannel operands).map fun c => .commands [.lastwidth c]
  else if name = "SETMAP".toList then
    (readSetmap ((splitAtChar ',' operands).map trimBlanks)).map fun i => .commands [i]
  else if name = "GETCHANNEL".toList then (readChannel operands).map fun c => .commands [.getchannel c]
  else if name = "CAPTURE".toList then
    match operands with
    | '@' :: rest => (readWord (trimBlanks rest)).map .capture
    | _ => none
  else none

end Sys2Proof.Machine
end

