-- ==== Sys2Proof/Safety.lean ====
section
/-! DEFINITION. What claims about runs are stated in: runs, the invariant of the reachable states, the ownership of
the fields, and the sequential reading of the CAPTURE loop. The block cannot stop (spec/60_exceptions.md R120), so a
safe run is one whose states all meet `State.Inv`. -/

namespace Sys2Proof.Machine

/-- `n` steps lead from `s` to `t`. -/
def stepsTo : Nat → State → State → Prop
  | 0, s, t => s = t
  | n + 1, s, t => ∃ u, step s = .next u ∧ stepsTo n u t

/-- `n` steps lead from `s` to `t`, and every state on the way, `s` and `t` among them, has the property `P`. -/
def stepsThrough (P : State → Prop) : Nat → State → State → Prop
  | 0, s, t => P s ∧ s = t
  | n + 1, s, t => P s ∧ ∃ u, step s = .next u ∧ stepsThrough P n u t

/-- What the steps of the block keep true of slot `i`. -/
structure Slot.Inv (p : Params) (i : Nat) (sl : Slot) : Prop where
  /-- `mask[i] = ch[i].enabled` (R35) -/
  mask_enabled : sl.mask = sl.ch.enabled
  /-- the line of an enabled channel is an input (R35) -/
  input_of_enabled : sl.ch.enabled = true → sl.lineMode = .input
  /-- the line of a disabled channel is an output, or still in its reset mode (R35) -/
  output_of_disabled : sl.ch.enabled = false → sl.lineMode = .output ∨ sl.lineMode = p.lineResetMode i
  /-- an accepted mapping is not degenerate (R30) -/
  accepted_mapping : sl.map.valid = true →
    degenerateMapping sl.map.rawMin sl.map.rawMax sl.map.outMin sl.map.outMax = false
  /-- a mapping record is at reset until SETMAP accepts a mapping (R28, R43) -/
  unmapped_reset : sl.map.valid = false → sl.map = .reset

/-- What the steps of a block with parameters `p` keep true of its state. -/
structure State.Inv (p : Params) (s : State) : Prop where
  /-- records are neither created nor destroyed (R20) -/
  slot_count : s.N = p.N
  slot_inv : ∀ (i : Nat) (sl : Slot), s.slots[i]? = some sl → sl.Inv p i
  /-- before INIT no CAPTURE step has run, so the captured values are those of reset (R43, R147) -/
  nothing_captured : s.notifyArmed = false → ∀ (i : Nat) (sl : Slot), s.slots[i]? = some sl →
    sl.ch.lastLevel = .low ∧ sl.ch.lastRisingTimestamp = 0 ∧ sl.ch.lastPulseWidth = 0

/-- The fields of a slot that only the capture engine writes (R26, R133). -/
def Slot.captureFields (sl : Slot) : Level × Word × Word :=
  (sl.ch.lastLevel, sl.ch.lastRisingTimestamp, sl.ch.lastPulseWidth)

/-- The fields of a slot that only the host port writes (R26, R133). -/
def Slot.hostFields (sl : Slot) : Bool × MappingRecord × Bool × LineMode :=
  (sl.ch.enabled, sl.map, sl.mask, sl.lineMode)

/-- The capture engine's fields of every channel. -/
def State.captureFields (s : State) : List (Level × Word × Word) := s.slots.map Slot.captureFields

/-- The host port's fields of every channel. -/
def State.hostFields (s : State) : List (Bool × MappingRecord × Bool × LineMode) := s.slots.map Slot.hostFields

/-- The level inputs. -/
def State.levels (s : State) : List Level := s.slots.map Slot.level

/-- The state with its mapping records blotted out: two states alike but for their mappings agree in it. -/
def State.blotMappings (s : State) : State :=
  { s with slots := s.slots.map fun sl => { sl with map := .reset } }

/-- The state with everything blotted out that no command may read: the level and timer inputs, `pending`,
`lastLevel` and `lastRisingTimestamp` (R22, R23, R34, R37). -/
def State.blotUnread (s : State) : State :=
  { s with
    pending := false
    timer := 0
    slots := s.slots.map fun sl =>
      { sl with ch := { sl.ch with lastLevel := .low, lastRisingTimestamp := 0 }, level := .low } }

/-- Every slot but slot `c` is the same in `s` and `t`, and there are as many. -/
def SameSlotsBut (c : Nat) (s t : State) : Prop :=
  t.N = s.N ∧ ∀ j, j ≠ c → t.slots[j]? = s.slots[j]?

/-- What no command but INIT touches, and no command's effect: the arm bit, `pending`, the timer input, the host's
words to come and the schedule (the step takes the transaction and the turn before the command runs). -/
def SameOutsideSlots (s t : State) : Prop :=
  t.notifyArmed = s.notifyArmed ∧ t.pending = s.pending ∧ t.timer = s.timer ∧ t.hostIn = s.hostIn ∧
    t.schedule = s.schedule

/-- `lastLevel` of channel `i`, where there is one. -/
def State.lastLevelOf (s : State) (i : Nat) : Option Level := s.slots[i]?.map fun sl => sl.ch.lastLevel

/-- `lastPulseWidth` of channel `i`, where there is one. -/
def State.widthOf (s : State) (i : Nat) : Option Word := s.slots[i]?.map fun sl => sl.ch.lastPulseWidth

/-- `enabled` of channel `i`, where there is one. -/
def State.enabledOf (s : State) (i : Nat) : Option Bool := s.slots[i]?.map fun sl => sl.ch.enabled

/-- One pass of the CAPTURE loop of R84: the visit to channel `i`, with the step's timer sample. -/
def State.captureChannel (now : Word) (s : State) (i : Nat) : State := s.updateSlot i (Slot.capture now)

/-- The CAPTURE loop of R84, visiting the channels one after another in the order given. -/
def State.captureInOrder (order : List Nat) (s : State) : State :=
  order.foldl (State.captureChannel s.timer) { s with pending := false }

/-- A quiescent state, where a run ends (R140, D30): the host has no transaction in progress and none to come, not even
the first words of one, and no CAPTURE step is enabled. Turns of the environment may still follow. -/
def State.quiescent (s : State) : Bool := s.hostIn.isEmpty && !s.captureEnabled

/-- A command word is illegal, in the words of R63 and R67. -/
def illegalWord (cmd : Word) : Bool :=
  let opcode := (cmd.toNat / 2 ^ 24) % 2 ^ 8
  opcode = 0x00 || (0x07 ≤ opcode && opcode ≤ 0xFF) || (cmd.toNat / 2 ^ 8) % 2 ^ 16 != 0 ||
    (opcode = 0x01 && cmd.toNat % 2 ^ 8 != 0)

/-- A magnitude, in units of `2^-149`, that some binary32 word encodes. -/
def IsF32Magnitude (units : Nat) : Prop := ∃ w, asf32 w = .fin false units

/-- How far `num / den` units lie from `units`, times `den`. -/
def distanceTo (num den units : Nat) : Nat := ((units * den : Nat) - (num : Nat) : Int).natAbs

/-- `v` is `± num / den` units rounded once to binary32, to nearest with ties to even: no finite binary32 lies
nearer; of two equally near ones `v` is the one whose pattern is even; and the result is an infinity exactly from
half a unit in the last place above the greatest finite value on (R16, R106). -/
def IsNearestEven (neg : Bool) (num den : Nat) (v : F32) : Prop :=
  match v with
  | .nan => False
  | .inf sign => sign = neg ∧ (2 ^ 25 - 1) * 2 ^ 252 * den ≤ num
  | .fin sign units =>
    sign = neg ∧ num < (2 ^ 25 - 1) * 2 ^ 252 * den ∧ IsF32Magnitude units ∧
      ∀ other, IsF32Magnitude other →
        distanceTo num den units ≤ distanceTo num den other ∧
          (distanceTo num den units = distanceTo num den other → other ≠ units → magnitudeBits units % 2 = 0)

end Sys2Proof.Machine
end

