-- ==== Sys2Proof/Certificates/Slice0/Obligations.lean ====
section
/-! DEFINITION. The statements about the model, for the provers. Each docstring names the rules of spec/ it
formalises; one that rests on a choice of the model names the log entry. -/

open Sys2Proof Sys2Proof.Machine

/-! ### Encoding (spec/30_encoding.md) -/

/-- Decoding the words of a well-formed command gives the command back and leaves the words after it: no bit of an
encoding is dropped. R61, R64, R65. -/
def Obligations.DecodeOfEncodeIsTheCommand : Prop :=
  ∀ (i : Instr) (rest : List Word), i.wellFormed = true → decode (encode i ++ rest) = .command i rest

/-- Every legal transaction has one spelling: what decodes to a command is that command's encoding, and the command
is well formed. R61 to R65, R68. -/
def Obligations.EncodeOfDecodeIsTheWords : Prop :=
  ∀ (ws rest : List Word) (i : Instr), decode ws = .command i rest → i.wellFormed = true ∧ ws = encode i ++ rest

/-- Words written out from the tables of R64 and R77 decode to the commands they stand for. -/
def Obligations.WordsOfTheEncodingTableDecode : Prop :=
  decode [0x01000000#32] = .command .init [] ∧
  decode [0x02000003#32] = .command (.enable 3) [] ∧
  decode [0x03000007#32] = .command (.disable 7) [] ∧
  decode [0x04000002#32] = .command (.lastwidth 2) [] ∧
  decode [0x05000000#32, 0x000003E8#32, 0x000007D0#32, 0xBF800000#32, 0x3F800000#32] =
    .command (.setmap 0 1000#32 2000#32 0xBF800000#32 0x3F800000#32) [] ∧
  decode [0x06000000#32] = .command (.getchannel 0) [] ∧
  decode [0x01000005#32] = .illegal .initChannelNotZero []

/-- A whole transaction decodes to a command with mnemonic `m` exactly when a row of the opcode table with that
mnemonic covers its command word, at most one row covers a word, and the row's operand count is the framing's.
R64, R68, spec/opcode_table.json. -/
def Obligations.OpcodeTableDecidesTheCommand : Prop :=
  (∀ (cmd : Word) (ops rest : List Word) (m : String), ops.length = operandCount cmd →
    ((∃ i, decode (cmd :: ops ++ rest) = .command i rest ∧ i.mnemonic = m) ↔
      ∃ row ∈ opcodeTable, row.mnemonic = m ∧ row.covers cmd = true)) ∧
  ∀ (cmd : Word), ∀ r₁ ∈ opcodeTable, ∀ r₂ ∈ opcodeTable, r₁.covers cmd = true → r₂.covers cmd = true →
    r₁ = r₂ ∧ r₁.operandWords = operandCount cmd

/-- The length of a transaction follows from bits 31:24 of its command word alone, legal or not: `0x05` means five
words, anything else one; the block decodes only when they are all there. R60, R69. -/
def Obligations.FramingFollowsTheOpcode : Prop :=
  ∀ (cmd : Word) (ws : List Word),
    let n := if cmd.toNat / 2 ^ 24 = 0x05 then 4 else 0
    (ws.length < n → decode (cmd :: ws) = .waiting) ∧
    (n ≤ ws.length → (∃ i, decode (cmd :: ws) = .command i (ws.drop n)) ∨
      ∃ why, decode (cmd :: ws) = .illegal why (ws.drop n))

/-- A command word that is illegal in the words of R63 and R67, with the operand words its opcode field asks for,
writes no state and answers 0; the next word at the port is the one after its operand words. -/
def Obligations.IllegalWordIsASilentNoOp : Prop :=
  ∀ (s : State) (cmd : Word) (ops rest : List Word) (turns : List Turn),
    illegalWord cmd = true → ops.length = (if cmd.toNat / 2 ^ 24 = 0x05 then 4 else 0) →
    s.hostIn = cmd :: ops ++ rest → s.schedule = .host :: turns →
    step s = .next { s with hostIn := rest, schedule := turns, response := some 0 }

/-! ### Steps -/

/-- On the host's turn a step performs exactly the command the words at the port decode to, with its words taken off
the port and the turn off the schedule. With no turn scheduled and no CAPTURE step enabled the host's ready command
is performed the same way. R60, R127. -/
def Obligations.StepRunsTheDecodedCommand : Prop :=
  ∀ (s : State) (i : Instr) (rest : List Word), decode s.hostIn = .command i rest →
    (∀ turns, s.schedule = .host :: turns → step s = exec i { s with hostIn := rest, schedule := turns }) ∧
    (s.schedule = [] → s.captureEnabled = false → step s = exec i { s with hostIn := rest })

/-- The block raises no exception and never halts: every step from every state answers a next state. R120. -/
def Obligations.EveryStepAnswersANextState : Prop :=
  ∀ s : State, ∃ t, step s = .next t

/-- With both a CAPTURE step and a host transaction ready, either may come next, and neither is lost by the other:
with the engine's turn next the step is the CAPTURE step, after which the transaction is still ready; with the host's
turn next the step performs the transaction at the port, exactly its words taken off, legal or not, and the CAPTURE
step is still enabled after it. R127, R53; that a schedule in State says which comes next is the model's choice, log
entry 7. -/
def Obligations.EitherReadyAgentMayComeNext : Prop :=
  ∀ (s : State) (turns : List Turn), s.captureEnabled = true → s.hostReady = true →
    (step { s with schedule := .capture :: turns } = .next ({ s with schedule := turns }.capture) ∧
      ({ s with schedule := turns }.capture).hostReady = true) ∧
    ((∃ i rest, decode s.hostIn = .command i rest ∧
        step { s with schedule := .host :: turns } = exec i { s with hostIn := rest, schedule := turns }) ∨
      ∃ why rest, decode s.hostIn = .illegal why rest ∧
        step { s with schedule := .host :: turns } =
          .next { s with hostIn := rest, schedule := turns, response := some 0 }) ∧
    ∃ t, step { s with schedule := .host :: turns } = .next t ∧ t.captureEnabled = true

/-- In a quiescent state a turn of the host or of the engine changes nothing, a change of the timer or of a line that
is not armed leaves the state quiescent, and with no turn to come the state stays as it is; a transaction begun and
not whole waits in the same way, but is not quiescent. R140, R60; the turns, and that no environment change follows
an empty schedule, are the model's choice, log entries 7 and 10. -/
def Obligations.QuiescentStateStays : Prop :=
  (∀ s : State, s.quiescent = true →
    (s.schedule = [] → step s = .next s) ∧
    ∀ turns,
      (s.schedule = .host :: turns → step s = .next { s with schedule := turns }) ∧
      (s.schedule = .capture :: turns → step s = .next { s with schedule := turns }) ∧
      (∀ now, s.schedule = .timer now :: turns → ∃ t, step s = .next t ∧ t.quiescent = true) ∧
      ∀ i v sl, s.schedule = .level i v :: turns → s.slots[i]? = some sl → sl.mask = false →
        ∃ t, step s = .next t ∧ t.quiescent = true) ∧
  ∀ s : State, decode s.hostIn = .waiting → s.hostIn ≠ [] → s.captureEnabled = false →
    s.quiescent = false ∧ (s.schedule = [] → step s = .next s) ∧
      ∀ turns, s.schedule = .host :: turns → step s = .next { s with schedule := turns }

/-! ### The capture family (spec/40_capture.md) -/

/-- INIT, all of R80: its word, its effect and frame, idempotence, the CAPTURE step a pending notification makes
deliverable at once, and that no command undoes it. -/
def Obligations.InitArmsNotification : Prop :=
  encode .init = [0x01000000#32] ∧
  ∀ s : State,
    exec .init s = .next { s with notifyArmed := true, response := some 0 } ∧
    ∀ t, exec .init s = .next t →
      exec .init t = .next t ∧ t.captureEnabled = s.pending ∧
      ∀ (i : Instr) (u : State), exec i t = .next u → u.notifyArmed = true

/-- ENABLE, all of R81: its word, its effect on slot `c` and its frame, the no-op of an invalid index, idempotence, no
CAPTURE step made deliverable by it, a High line taken for a rising edge at the next CAPTURE step's own time where
`lastLevel` is Low, and the notification of a level change that follows the switch to Input. -/
def Obligations.EnableJoinsCapture : Prop :=
  ∀ (s : State) (c : Nat),
    (c < 256 → encode (.enable c) = [0x02000000#32 + BitVec.ofNat 32 c]) ∧
    (s.N ≤ c → exec (.enable c) s = .next { s with response := some 0 }) ∧
    ∀ sl, s.slots[c]? = some sl → ∃ t, exec (.enable c) s = .next t ∧
      t.slots[c]? = some { sl with ch := { sl.ch with enabled := true }, lineMode := .input, mask := true } ∧
      SameSlotsBut c s t ∧ SameOutsideSlots s t ∧ t.draws = s.draws ∧ t.response = some 0 ∧
      exec (.enable c) t = .next t ∧ t.captureEnabled = s.captureEnabled ∧
      (sl.ch.lastLevel = .low → sl.level = .high → ∃ sl', t.capture.slots[c]? = some sl' ∧
        sl'.captureFields = (.high, t.timer, sl.ch.lastPulseWidth)) ∧
      ∀ v, v ≠ sl.level → (t.setLevel c v).pending = true

/-- DISABLE, all of R82: its word, its effect on slot `c` and its frame (the captured values and `pending` stay), the
no-op of an invalid index, idempotence, the CAPTURE step left pending, which skips the channel, and the width measured
from the stale timestamp at the next Low when a pulse was cut and the channel is enabled again. -/
def Obligations.DisableFreezesTheChannel : Prop :=
  ∀ (s : State) (c : Nat),
    (c < 256 → encode (.disable c) = [0x03000000#32 + BitVec.ofNat 32 c]) ∧
    (s.N ≤ c → exec (.disable c) s = .next { s with response := some 0 }) ∧
    ∀ sl, s.slots[c]? = some sl → ∃ t, exec (.disable c) s = .next t ∧
      t.slots[c]? = some { sl with ch := { sl.ch with enabled := false }, lineMode := .output, mask := false } ∧
      SameSlotsBut c s t ∧ SameOutsideSlots s t ∧ t.draws = s.draws ∧ t.response = some 0 ∧
      exec (.disable c) t = .next t ∧ t.captureEnabled = s.captureEnabled ∧
      t.capture.slots[c]? = t.slots[c]? ∧
      (sl.ch.lastLevel = .high → ∃ u, exec (.enable c) t = .next u ∧ ∀ now,
        (((u.setLevel c .low).setTimer now).capture).widthOf c =
          some (wrap32 ((now.toNat : Int) - sl.ch.lastRisingTimestamp.toNat)))

/-- After ENABLE of a channel the block drives nothing on its line; after DISABLE it drives the parameter level
`disabledDriveLevel`. R32, R39. -/
def Obligations.DisabledLineDrivesItsLevel : Prop :=
  ∀ (p : Params) (s : State) (c : Nat), c < s.N →
    (∃ t, exec (.enable c) s = .next t ∧ t.lineDrive p c = none) ∧
    ∃ t, exec (.disable c) s = .next t ∧ t.lineDrive p c = some (p.disabledDriveLevel c)

/-- A line never enabled nor disabled keeps the mode of its reset: after reset a line is driven at `disabledDriveLevel`
where `lineResetMode` is Output and not driven where it is Input, and a step that takes no ENABLE and no DISABLE of
the channel off the port changes nothing of that. R32, R35, R39, R43. -/
def Obligations.UntouchedLineKeepsItsDrive : Prop :=
  ∀ (p : Params) (c : Nat),
    (c < p.N → p.lineResetMode c = .output → (State.resetWith p).lineDrive p c = some (p.disabledDriveLevel c)) ∧
    (c < p.N → p.lineResetMode c = .input → (State.resetWith p).lineDrive p c = none) ∧
    ∀ s t : State, step s = .next t →
      (∀ rest, decode s.hostIn = .command (.enable c) rest → t.hostIn ≠ rest) →
      (∀ rest, decode s.hostIn = .command (.disable c) rest → t.hostIn ≠ rest) →
      t.lineDrive p c = s.lineDrive p c

/-- LASTWIDTH, all of R83: its word, the committed width as the answer whether or not the channel is enabled, 0 for
an invalid index, and no other effect. -/
def Obligations.LastwidthAnswersTheCommittedWidth : Prop :=
  ∀ (s : State) (c : Nat),
    (c < 256 → encode (.lastwidth c) = [0x04000000#32 + BitVec.ofNat 32 c]) ∧
    (∀ sl, s.slots[c]? = some sl → exec (.lastwidth c) s = .next { s with response := some sl.ch.lastPulseWidth }) ∧
    (s.N ≤ c → exec (.lastwidth c) s = .next { s with response := some 0 })

/-- A CAPTURE step, the table of R84: it clears `pending`, and to each slot it does what the slot's `lastLevel` and
sampled level ask, with the step's one timer sample; the width is the exact difference modulo `2^32`. A disabled
channel is skipped. -/
def Obligations.CaptureFollowsTheEdgeTable : Prop :=
  ∀ (s : State) (i : Nat) (sl : Slot), s.slots[i]? = some sl → s.capture.pending = false ∧
    ∃ sl', s.capture.slots[i]? = some sl' ∧
    sl'.hostFields = sl.hostFields ∧ sl'.level = sl.level ∧
    (sl.ch.enabled = false → sl' = sl) ∧
    (sl.ch.enabled = true →
      (sl.ch.lastLevel = .low → sl.level = .high →
        sl'.captureFields = (.high, s.timer, sl.ch.lastPulseWidth)) ∧
      (sl.ch.lastLevel = .high → sl.level = .high → sl' = sl) ∧
      (sl.ch.lastLevel = .high → sl.level = .low →
        sl'.ch.lastLevel = .low ∧ sl'.ch.lastRisingTimestamp = sl.ch.lastRisingTimestamp ∧
        (sl'.ch.lastPulseWidth.toNat : Int) =
          ((s.timer.toNat : Int) - sl.ch.lastRisingTimestamp.toNat) % 2 ^ 32) ∧
      (sl.ch.lastLevel = .low → sl.level = .low → sl' = sl))

/-- What a CAPTURE step leaves alone beside the channel records, which `CaptureFollowsTheEdgeTable` is about: `pending`
becomes 0; `N`, the arm bit, the host port, the inputs, the schedule and the draws stay. R84, R129. -/
def Obligations.CaptureLeavesPortsAndInputs : Prop :=
  ∀ s : State, s.capture.pending = false ∧ s.capture.N = s.N ∧ s.capture.notifyArmed = s.notifyArmed ∧
    s.capture.timer = s.timer ∧ s.capture.hostIn = s.hostIn ∧ s.capture.response = s.response ∧
    s.capture.schedule = s.schedule ∧ s.capture.draws = s.draws ∧ s.capture.levels = s.levels

/-- The order in which a CAPTURE step visits the channels is not observable: the loop of R84 in any order of the
indices `0 .. N - 1` gives the state the model's one-shot CAPTURE gives. R85. -/
def Obligations.CaptureOrderIsNotObservable : Prop :=
  ∀ (s : State) (order : List Nat), order.Perm (List.range s.N) → s.captureInOrder order = s.capture

/-- A channel whose level equals its `lastLevel` is unchanged by any number of CAPTURE steps. R86. -/
def Obligations.CaptureLeavesASteadyChannel : Prop :=
  ∀ (s : State) (i : Nat) (sl : Slot) (n : Nat), s.slots[i]? = some sl → sl.level = sl.ch.lastLevel →
    (State.capture^[n] s).slots[i]? = some sl

/-- Every command but INIT with an index that names no channel answers its sentinel and changes no state. R88, R121. -/
def Obligations.InvalidIndexAnswersTheSentinel : Prop :=
  ∀ (s : State) (i : Instr) (c : Nat), i.channel = some c → s.N ≤ c →
    exec i s = .next { s with response := some 0 }

/-- INIT, ENABLE and DISABLE run twice leave the state of running once, and LASTWIDTH run again answers the same
word; a GETCHANNEL that answers no draw does so too. R52; a GETCHANNEL that draws is left out, log entry 8. -/
def Obligations.CommandsAreIdempotent : Prop :=
  ∀ (s : State) (c : Nat),
    (∃ t, exec .init s = .next t ∧ exec .init t = .next t) ∧
    (∃ t, exec (.enable c) s = .next t ∧ exec (.enable c) t = .next t) ∧
    (∃ t, exec (.disable c) s = .next t ∧ exec (.disable c) t = .next t) ∧
    (∃ t, exec (.lastwidth c) s = .next t ∧ exec (.lastwidth c) t = .next t) ∧
    ∃ t, exec (.getchannel c) s = .next t ∧ (t.draws = s.draws → exec (.getchannel c) t = .next t)

/-! ### Change notification (spec/60_exceptions.md) -/

/-- A change of `level(i)` sets `pending` if `mask[i] = 1`, whatever `notifyArmed` is, leaves a set `pending` set, and
has no effect on the block if `mask[i] = 0`; only the level input of line `i` and `pending` move. A change undone before
the next CAPTURE step leaves `pending` set and the line as it was. R124. -/
def Obligations.LevelChangeNotifies : Prop :=
  ∀ (s : State) (turns : List Turn) (i : Nat) (v : Level) (sl : Slot), s.schedule = .level i v :: turns →
    s.slots[i]? = some sl → v ≠ sl.level → ∃ t, step s = .next t ∧
      t.slots[i]? = some { sl with level := v } ∧ SameSlotsBut i s t ∧
      (sl.mask = true → t.pending = true) ∧ (sl.mask = false → t.pending = s.pending) ∧
      t.notifyArmed = s.notifyArmed ∧ t.timer = s.timer ∧ t.hostIn = s.hostIn ∧ t.response = s.response ∧
      t.schedule = turns ∧ t.draws = s.draws ∧
      (t.setLevel i sl.level).slots = s.slots ∧ (sl.mask = true → (t.setLevel i sl.level).pending = true)

/-- A CAPTURE step runs exactly when `pending = 1` and `notifyArmed = 1`: the engine's turn is a CAPTURE step then
and nothing otherwise; and only a CAPTURE step clears `pending`, whatever step is taken. R125. -/
def Obligations.OnlyAnEnabledCaptureClearsPending : Prop :=
  (∀ (s : State) (turns : List Turn), s.schedule = .capture :: turns →
    (s.pending = true ∧ s.notifyArmed = true → step s = .next ({ s with schedule := turns }.capture)) ∧
    (¬ (s.pending = true ∧ s.notifyArmed = true) → step s = .next { s with schedule := turns })) ∧
  ∀ s t : State, step s = .next t → s.pending = true → t.pending = false →
    s.notifyArmed = true ∧ t.slots = s.slots.map (Slot.capture t.timer) ∧ t.hostIn = s.hostIn ∧
      t.response = s.response

/-- An enabled CAPTURE step is eventually taken: within as many steps as there are turns to come and words at the
host port. R126 bounds no delay; the bound is the model's, log entry 7. -/
def Obligations.EnabledCaptureIsTaken : Prop :=
  ∀ s : State, s.captureEnabled = true →
    ∃ (n : Nat) (u v : State), n ≤ s.schedule.length + s.hostIn.length ∧ stepsTo n s u ∧
      u.captureEnabled = true ∧ step u = .next v ∧ v.pending = false ∧
      v.slots = u.slots.map (Slot.capture v.timer)

/-- Before INIT no CAPTURE step runs: while a step leaves `notifyArmed` clear, it changes no captured value and does
not clear `pending`. R147, R158. -/
def Obligations.NoCaptureBeforeInit : Prop :=
  ∀ s t : State, step s = .next t → t.notifyArmed = false →
    s.notifyArmed = false ∧ t.captureFields = s.captureFields ∧ (s.pending = true → t.pending = true)

/-- `notifyArmed` is never cleared, and a step that sets it took an INIT off the port. R33. -/
def Obligations.NotifyArmedIsSetByInitOnly : Prop :=
  (∀ s t : State, step s = .next t → s.notifyArmed = true → t.notifyArmed = true) ∧
  ∀ s t : State, step s = .next t → s.notifyArmed = false → t.notifyArmed = true →
    ∃ rest, decode s.hostIn = .command .init rest ∧ t.hostIn = rest

/-! ### Whole-machine rules (spec/10_state.md) -/

/-- After reset, whatever the parameters: every field at the value of R43, no CAPTURE step enabled, every LASTWIDTH 0
and every GETCHANNEL of a valid index a draw. R43, R145, R146. -/
def Obligations.ResetLeavesTheStatedValues : Prop :=
  ∀ p : Params,
    (State.resetWith p).N = p.N ∧ 1 ≤ p.N ∧ p.N ≤ 256 ∧
    (∀ i, i < p.N → ∃ sl, (State.resetWith p).slots[i]? = some sl ∧
      sl.ch = ⟨false, .low, 0, 0⟩ ∧ sl.map = ⟨0, 0, 0, 0, false⟩ ∧ sl.mask = false ∧
      sl.lineMode = p.lineResetMode i) ∧
    (State.resetWith p).notifyArmed = false ∧ (State.resetWith p).pending = false ∧
    (State.resetWith p).captureEnabled = false ∧
    ∀ c, (∃ t, exec (.lastwidth c) (State.resetWith p) = .next t ∧ t.response = some 0) ∧
      (c < p.N → ∃ t, exec (.getchannel c) (State.resetWith p) = .next t ∧
        t.response = some (Config.unmappedResult (State.resetWith p).draws))

/-- The invariant holds after reset, whatever the parameters. R30, R35, R43. -/
def Obligations.ResetMeetsTheInvariant : Prop :=
  (∀ p : Params, (State.resetWith p).Inv p) ∧ State.reset.Inv Config.params

/-- Every step keeps the invariant: `mask[i] = ch[i].enabled`, the line of an enabled channel is an input and that of
a disabled one an output or still in its reset mode, an accepted mapping is not degenerate, the number of channels
is the parameter, and before INIT nothing is captured. R20, R30, R35, R147. -/
def Obligations.EveryStepKeepsTheInvariant : Prop :=
  ∀ (p : Params) (s t : State), s.Inv p → step s = .next t → t.Inv p

/-- A disabled channel's record is frozen: no step writes its captured values; and neither DISABLE nor ENABLE clears
them. R25. -/
def Obligations.DisabledRecordIsFrozen : Prop :=
  (∀ (s t : State) (i : Nat) (sl : Slot), step s = .next t → s.slots[i]? = some sl → sl.ch.enabled = false →
    ∃ sl', t.slots[i]? = some sl' ∧ sl'.captureFields = sl.captureFields) ∧
  ∀ (s : State) (c : Nat), (∃ t, exec (.disable c) s = .next t ∧ t.captureFields = s.captureFields) ∧
    ∃ t, exec (.enable c) s = .next t ∧ t.captureFields = s.captureFields

/-- While a channel stays disabled, LASTWIDTH answers the same word however many steps are taken and whatever its
line does. R89. -/
def Obligations.DisabledWidthStaysTheSame : Prop :=
  ∀ (n : Nat) (s t : State) (i : Nat), stepsThrough (fun x => x.enabledOf i = some false) n s t →
    t.widthOf i = s.widthOf i ∧
      ∃ s' t', exec (.lastwidth i) s = .next s' ∧ exec (.lastwidth i) t = .next t' ∧ t'.response = s'.response

/-- The fields have one writer each: no command writes a captured value, `pending` or an input; a CAPTURE step writes
no host field and not `notifyArmed`, and what it does to everything else does not depend on the mapping records; a
change of a level input writes neither. R26. -/
def Obligations.FieldsHaveTheirOwners : Prop :=
  (∀ (i : Instr) (s t : State), exec i s = .next t →
    t.captureFields = s.captureFields ∧ t.pending = s.pending ∧ t.levels = s.levels ∧ t.timer = s.timer) ∧
  (∀ s : State, s.capture.hostFields = s.hostFields ∧ s.capture.notifyArmed = s.notifyArmed) ∧
  (∀ s t : State, s.blotMappings = t.blotMappings → s.capture.blotMappings = t.capture.blotMappings) ∧
  ∀ (s : State) (i : Nat) (v : Level),
    (s.setLevel i v).captureFields = s.captureFields ∧ (s.setLevel i v).hostFields = s.hostFields

/-- No command reads `pending`, `lastLevel`, `lastRisingTimestamp`, a level or the timer: two states alike but for
these answer alike and end alike but for these. R22, R23, R34, R37. -/
def Obligations.CommandsDoNotReadCaptureInputs : Prop :=
  ∀ (i : Instr) (s t s' t' : State), s.blotUnread = t.blotUnread → exec i s = .next s' → exec i t = .next t' →
    s'.blotUnread = t'.blotUnread

/-- A committed width is the wrap-around difference of two timer samples: of the CAPTURE step that commits it and of
the CAPTURE step that recorded the last rising edge, whatever happened in between, a DISABLE and ENABLE of the
channel included. R23, R24, R84, R153. -/
def Obligations.WidthIsTheDifferenceOfTwoSamples : Prop :=
  ∀ (n i : Nat) (s u v w : State),
    s.lastLevelOf i = some .low → step s = .next u → u.lastLevelOf i = some .high →
    stepsThrough (fun x => x.lastLevelOf i = some .high) n u v →
    step v = .next w → w.lastLevelOf i = some .low →
    w.widthOf i = some (wrap32 ((w.timer.toNat : Int) - u.timer.toNat))

/-- The expansion of `ENABLE` with a list of channels, with the host's turns for it scheduled, enables in one step a
command exactly the valid channels of the list and changes no other slot; a list DISABLE likewise. R72, R73. -/
def Obligations.ListCommandsActOnEachChannel : Prop :=
  ∀ (s : State) (cs : List Nat) (rest : List Word) (turns : List Turn), (∀ c ∈ cs, c < 256) →
    s.schedule = List.replicate cs.length .host ++ turns →
    (s.hostIn = (enableList cs).flatMap encode ++ rest →
      ∃ t, stepsTo cs.length s t ∧ t.N = s.N ∧ t.hostIn = rest ∧ t.schedule = turns ∧
        t.notifyArmed = s.notifyArmed ∧ t.pending = s.pending ∧
        ∀ i sl, s.slots[i]? = some sl → t.slots[i]? = some (if i ∈ cs then sl.enable else sl)) ∧
    (s.hostIn = (disableList cs).flatMap encode ++ rest →
      ∃ t, stepsTo cs.length s t ∧ t.N = s.N ∧ t.hostIn = rest ∧ t.schedule = turns ∧
        t.notifyArmed = s.notifyArmed ∧ t.pending = s.pending ∧
        ∀ i sl, s.slots[i]? = some sl → t.slots[i]? = some (if i ∈ cs then sl.disable else sl))

/-! ### The mapper family (spec/41_mapper.md) -/

/-- SETMAP, all of R100: its words, when it accepts, what it stores and its frame, and that a rejection writes
nothing. Accepting replaces the old mapping whole; the captured values stay. -/
def Obligations.SetmapStoresOrRejects : Prop :=
  ∀ (s : State) (c : Nat) (rawMin rawMax outMin outMax : Word),
    (c < 256 → encode (.setmap c rawMin rawMax outMin outMax) =
      [0x05000000#32 + BitVec.ofNat 32 c, rawMin, rawMax, outMin, outMax]) ∧
    ((s.N ≤ c ∨ rawMin = rawMax ∨ f32eq (asf32 outMin) (asf32 outMax) = true) →
      exec (.setmap c rawMin rawMax outMin outMax) s = .next { s with response := some 0 }) ∧
    (∀ sl, s.slots[c]? = some sl → rawMin ≠ rawMax → f32eq (asf32 outMin) (asf32 outMax) = false →
      ∃ t, exec (.setmap c rawMin rawMax outMin outMax) s = .next t ∧
        t.slots[c]? = some { sl with map := ⟨rawMin, rawMax, outMin, outMax, true⟩ } ∧
        SameSlotsBut c s t ∧ SameOutsideSlots s t ∧ t.draws = s.draws ∧ t.response = some 1)

/-- GETCHANNEL, all of R101: its word; `+0.0` for an invalid index; the draw `unmappedResult` while no mapping was
accepted; else `bits32` of the mapped width, or, where that is a NaN, the draw `nanResult`, a NaN encoding. It writes
no state of the block: only the response moves, and the model's own count of draws. The answer does not depend on
`enabled`. -/
def Obligations.GetchannelAnswersTheMappedWidth : Prop :=
  ∀ (s : State) (c : Nat),
    (c < 256 → encode (.getchannel c) = [0x06000000#32 + BitVec.ofNat 32 c]) ∧
    (s.N ≤ c → exec (.getchannel c) s = .next { s with response := some 0 }) ∧
    ∀ sl, s.slots[c]? = some sl →
      (sl.map.valid = false → ∃ n, exec (.getchannel c) s =
        .next { s with response := some (Config.unmappedResult s.draws), draws := n }) ∧
      (sl.map.valid = true → ∀ w, bits32 (mapEval sl.ch.lastPulseWidth sl.map) = some w →
        exec (.getchannel c) s = .next { s with response := some w }) ∧
      (sl.map.valid = true → mapEval sl.ch.lastPulseWidth sl.map = .nan →
        ∃ w n, isNaNPattern w = true ∧ exec (.getchannel c) s = .next { s with response := some w, draws := n })

/-- SETMAP and GETCHANNEL write no channel record, a CAPTURE step does to everything but the mapping records what it
would do with other mapping records, and a mapping configured after a width was captured applies to that width at the
next GETCHANNEL. R110. -/
def Obligations.MappingAppliesToTheLastWidth : Prop :=
  (∀ (s : State) (c : Nat) (rawMin rawMax outMin outMax : Word),
    (∃ t, exec (.setmap c rawMin rawMax outMin outMax) s = .next t ∧ t.slots.map Slot.ch = s.slots.map Slot.ch) ∧
    ∃ t, exec (.getchannel c) s = .next t ∧ t.slots.map Slot.ch = s.slots.map Slot.ch) ∧
  (∀ s t : State, s.blotMappings = t.blotMappings → s.capture.blotMappings = t.capture.blotMappings) ∧
  ∀ (s : State) (c : Nat) (rawMin rawMax outMin outMax : Word) (sl : Slot), s.slots[c]? = some sl →
    rawMin ≠ rawMax → f32eq (asf32 outMin) (asf32 outMax) = false →
    ∃ t u, exec (.setmap c rawMin rawMax outMin outMax) s = .next t ∧ exec (.getchannel c) t = .next u ∧
      ∀ w, bits32 (mapEval sl.ch.lastPulseWidth ⟨rawMin, rawMax, outMin, outMax, true⟩) = some w →
        u.response = some w

/-! ### Binary32 (spec/41_mapper.md, Numerics of the mapping) -/

/-- Every rounding of the model is IEEE 754's: to nearest, ties to even, subnormals kept, overflow to an infinity.
R16, R106. -/
def Obligations.RoundingIsToNearestEven : Prop :=
  ∀ (neg : Bool) (num den : Nat), 0 < den → IsNearestEven neg num den (roundF32 neg num den)

/-- The four operations and the conversion round the exact result once: on finite operands each answers the binary32
nearest to the exact sum, difference, product, quotient or integer, subnormals kept (R16, R106). An exact zero sum is
`+0` unless both terms are negative: R108 gives part of this, and IEEE 754, which R16 names, the rest, as the model
presumes it in log entry 12. -/
def Obligations.OperationsRoundTheExactResult : Prop :=
  (∀ v : Int, v ≠ 0 → IsNearestEven (decide (v < 0)) (2 ^ 149 * v.natAbs) 1 (f32 v)) ∧
  ∀ (a b : Bool) (x y : Nat),
    (let sum := signedUnits a x + signedUnits b y
     (sum ≠ 0 → IsNearestEven (decide (sum < 0)) sum.natAbs 1 (f32add (.fin a x) (.fin b y))) ∧
       (sum = 0 → f32add (.fin a x) (.fin b y) = .fin (a && b) 0)) ∧
    (let diff := signedUnits a x - signedUnits b y
     (diff ≠ 0 → IsNearestEven (decide (diff < 0)) diff.natAbs 1 (f32sub (.fin a x) (.fin b y))) ∧
       (diff = 0 → f32sub (.fin a x) (.fin b y) = .fin (a && !b) 0)) ∧
    IsNearestEven (a != b) (x * y) (2 ^ 149) (f32mul (.fin a x) (.fin b y)) ∧
    (y ≠ 0 → IsNearestEven (a != b) (2 ^ 149 * x) y (f32div (.fin a x) (.fin b y)))

/-- `f32` of an integer is exact up to `2^24` in magnitude and the nearest binary32 above that; of a nonzero integer of
the mapping's range it is a nonzero finite value of the same sign, so `D` of R102 is never zero. R105. -/
def Obligations.IntegerConversionKeepsSignAndSmallValues : Prop :=
  (∀ v : Int, v.natAbs ≤ 2 ^ 24 → f32 v = .fin (decide (v < 0)) (2 ^ 149 * v.natAbs)) ∧
  (∀ v : Int, 2 ^ 24 < v.natAbs → IsNearestEven (decide (v < 0)) (2 ^ 149 * v.natAbs) 1 (f32 v)) ∧
  (∀ v : Int, v ≠ 0 → v.natAbs < 2 ^ 32 → ∃ units, f32 v = .fin (decide (v < 0)) units ∧ units ≠ 0) ∧
  f32 16777217 = .fin false (2 ^ 149 * 16777216) ∧ f32 4294967295 = .fin false (2 ^ 149 * 4294967296)

/-- A pattern that is no NaN is the encoding of the value it encodes, every value of a pattern has that one encoding,
and the NaN patterns are exactly those with exponent all ones and a nonzero fraction. R16, R47. -/
def Obligations.PatternsEncodeTheirValues : Prop :=
  (∀ w : Word, isNaNPattern w = false → bits32 (asf32 w) = some w) ∧
  (∀ w : Word, isNaNPattern w = true ↔ asf32 w = .nan) ∧
  ∀ w : Word, isNaNPattern w = true ↔ ∃ (neg : Bool) (k : Fin 8388607), w = nanPattern neg k

/-- `f32eq` on patterns: the zeros are equal, a NaN equals nothing, any other two patterns are equal exactly when they
are the same word. R16. -/
def Obligations.EqualityOfPatterns : Prop :=
  ∀ v w : Word, f32eq (asf32 v) (asf32 w) = true ↔
    isNaNPattern v = false ∧ isNaNPattern w = false ∧
      (v = w ∨ (v &&& 0x7FFFFFFF#32 = 0 ∧ w &&& 0x7FFFFFFF#32 = 0))

/-- `mapEval` is R102's formula for every width and mapping: the two integer differences are exact and signed and never
wrap (R103), each is rounded once to binary32, `D` is nonzero where the raw bounds differ, and `R`, `P`, `Q` and the
result are each the binary32 nearest to the exact difference, product, quotient and sum of the values before them,
left to right, with no clamp; an exact zero gives a zero. -/
def Obligations.MappingFollowsTheFormula : Prop :=
  ∀ (w : Word) (m : MappingRecord),
    let a : Int := (w.toNat : Int) - m.rawMin.toNat
    let d : Int := (m.rawMax.toNat : Int) - m.rawMin.toNat
    ∃ A D R P Q : F32,
      mapEval w m = f32add Q (asf32 m.outMin) ∧ Q = f32div P D ∧ P = f32mul A R ∧
      R = f32sub (asf32 m.outMax) (asf32 m.outMin) ∧
      IsNearestEven (decide (a < 0)) (2 ^ 149 * a.natAbs) 1 A ∧
      IsNearestEven (decide (d < 0)) (2 ^ 149 * d.natAbs) 1 D ∧
      (m.rawMin ≠ m.rawMax → ∃ units, D = .fin (decide (d < 0)) units ∧ units ≠ 0) ∧
      (∀ hi x lo y, asf32 m.outMax = .fin hi x → asf32 m.outMin = .fin lo y →
        let r := signedUnits hi x - signedUnits lo y
        (r ≠ 0 → IsNearestEven (decide (r < 0)) r.natAbs 1 R) ∧ (r = 0 → ∃ sign, R = .fin sign 0)) ∧
      (∀ na x nr y, A = .fin na x → R = .fin nr y → IsNearestEven (na != nr) (x * y) (2 ^ 149) P) ∧
      (∀ np x nd y, P = .fin np x → D = .fin nd y → y ≠ 0 → IsNearestEven (np != nd) (2 ^ 149 * x) y Q) ∧
      ∀ nq x lo y, Q = .fin nq x → asf32 m.outMin = .fin lo y →
        let out := signedUnits nq x + signedUnits lo y
        (out ≠ 0 → IsNearestEven (decide (out < 0)) out.natAbs 1 (mapEval w m)) ∧
          (out = 0 → ∃ sign, mapEval w m = .fin sign 0)

/-- R109: with 1000, 2000, -1.0 and 1.0 width 1500 maps to 0.0 and width 2500 to 2.0; at `w = rawMin` any mapping
gives `outMin` when the output range is finite, a zero `outMin` apart, whose sign may turn, and NaN when the range is
not finite; at `w = rawMax` it gives `Q + outMin` with `Q = D * R / D`, which need not be `outMax`. -/
def Obligations.MappingAtTheBounds : Prop :=
  bits32 (mapEval 1500 ⟨1000, 2000, 0xBF800000, 0x3F800000, true⟩) = some 0x00000000 ∧
  bits32 (mapEval 2500 ⟨1000, 2000, 0xBF800000, 0x3F800000, true⟩) = some 0x40000000 ∧
  (∀ m : MappingRecord, m.rawMin ≠ m.rawMax →
    (∀ neg units, mapR m = .fin neg units →
      (∀ sign x, asf32 m.outMin = .fin sign x → x ≠ 0 → mapEval m.rawMin m = asf32 m.outMin) ∧
      (∀ sign, asf32 m.outMin = .fin sign 0 → ∃ sign', mapEval m.rawMin m = .fin sign' 0)) ∧
    (∀ neg, mapR m = .inf neg → mapEval m.rawMin m = .nan) ∧
    (mapR m = .nan → mapEval m.rawMin m = .nan) ∧
    mapEval m.rawMax m = f32add (f32div (f32mul (mapD m) (mapR m)) (mapD m)) (asf32 m.outMin)) ∧
  ∃ m : MappingRecord, degenerateMapping m.rawMin m.rawMax m.outMin m.outMax = false ∧
    mapEval m.rawMax m ≠ asf32 m.outMax

/-- The special values of R108 in the mapping: a NaN bound gives NaN; an infinite range gives, away from `rawMin`, the
infinity of sign `sign(A) * sign(R) * sign(D)` plus `outMin`, NaN when `outMin` is the opposite infinity; an infinite
`outMin` with a finite `outMax` gives the range the other sign's infinity. -/
def Obligations.MappingOfSpecialValues : Prop :=
  ∀ (w : Word) (m : MappingRecord), m.rawMin ≠ m.rawMax →
    ((asf32 m.outMin = .nan ∨ asf32 m.outMax = .nan) → mapEval w m = .nan) ∧
    (∀ sign, mapR m = .inf sign → w ≠ m.rawMin →
      let quotientSign := ((decide (w.toNat < m.rawMin.toNat) != sign) != decide (m.rawMax.toNat < m.rawMin.toNat))
      mapEval w m = (if asf32 m.outMin = .inf (!quotientSign) then .nan else .inf quotientSign)) ∧
    (∀ sign neg x, asf32 m.outMin = .inf sign → asf32 m.outMax = .fin neg x → mapR m = .inf (!sign))

/-- The source's examples of the mapping, from the words on: with 1000, 2000, -1.0, 1.0 width 1500 maps to 0.0, 2500
to 2.0 (not clamped), 0 to -3.0, and 1700 to the binary32 just below 0.4; and `mapEval` at `rawMax` need not be
`outMax`. R103, R104, R109, spec/95_test_vectors.md. -/
def Obligations.MappingExamples : Prop :=
  bits32 (mapEval 1500 ⟨1000, 2000, 0xBF800000, 0x3F800000, true⟩) = some 0x00000000 ∧
  bits32 (mapEval 2500 ⟨1000, 2000, 0xBF800000, 0x3F800000, true⟩) = some 0x40000000 ∧
  bits32 (mapEval 0 ⟨1000, 2000, 0xBF800000, 0x3F800000, true⟩) = some 0xC0400000 ∧
  bits32 (mapEval 1700 ⟨1000, 2000, 0xBF800000, 0x3F800000, true⟩) = some 0x3ECCCCCC ∧
  bits32 (mapEval 2000 ⟨1000, 2000, 0x3E99999A, 0x3DCCCCCD, true⟩) = some 0x3DCCCCCC
end

