-- ==== Sys2Proof/Laws/Decode.lean ====
section
/-! SUPPORT. The fields of a command word, as numbers, and the two ways between a command word and its fields. -/

namespace Sys2Proof

theorem opcodeField_toNat (cmd : Word) : (opcodeField cmd).toNat = cmd.toNat / 2 ^ 24 := by
  have := cmd.isLt
  simp only [opcodeField, BitVec.extractLsb'_toNat, Nat.shiftRight_eq_div_pow]
  omega

theorem reservedField_toNat (cmd : Word) : (reservedField cmd).toNat = cmd.toNat / 2 ^ 8 % 2 ^ 16 := by
  simp only [reservedField, BitVec.extractLsb'_toNat, Nat.shiftRight_eq_div_pow]

theorem channelField_toNat (cmd : Word) : (channelField cmd).toNat = cmd.toNat % 2 ^ 8 := by
  simp [channelField, BitVec.extractLsb'_toNat]

theorem commandWord_toNat {op c : Nat} (hop : op < 256) (hc : c < 256) :
    (commandWord op c).toNat = 2 ^ 24 * op + c := by
  simp only [commandWord, BitVec.toNat_ofNat]
  omega

@[simp] theorem opcodeField_commandWord {op c : Nat} (hop : op < 256) (hc : c < 256) :
    (opcodeField (commandWord op c)).toNat = op := by
  rw [opcodeField_toNat, commandWord_toNat hop hc]
  omega

@[simp] theorem reservedField_commandWord {op c : Nat} (hop : op < 256) (hc : c < 256) :
    reservedField (commandWord op c) = 0 := by
  apply BitVec.eq_of_toNat_eq
  rw [reservedField_toNat, commandWord_toNat hop hc]
  simp
  omega

@[simp] theorem channelField_commandWord {op c : Nat} (hop : op < 256) (hc : c < 256) :
    (channelField (commandWord op c)).toNat = c := by
  rw [channelField_toNat, commandWord_toNat hop hc]
  omega

/-- A command word without reserved bits is the word of its opcode and channel. -/
theorem eq_commandWord {cmd : Word} (h : reservedField cmd = 0) :
    cmd = commandWord (opcodeField cmd).toNat (channelField cmd).toNat := by
  have h' := congrArg BitVec.toNat h
  rw [reservedField_toNat] at h'
  apply BitVec.eq_of_toNat_eq
  have := cmd.isLt
  rw [commandWord_toNat (opcodeField cmd).isLt (channelField cmd).isLt, opcodeField_toNat, channelField_toNat]
  simp at h'
  omega

/-- A command word without reserved bits decodes by its opcode and channel. -/
theorem decodeCommand_commandWord {op c : Nat} (hop : op < 256) (hc : c < 256) (ops : List Word) :
    decodeCommand (commandWord op c) ops = decodeFields op c ops := by
  rw [decodeCommand, if_pos (reservedField_commandWord hop hc), opcodeField_commandWord hop hc,
    channelField_commandWord hop hc]

/-- The framing reads the opcode and nothing else (R69). -/
theorem operandCount_eq (cmd : Word) : operandCount cmd = if (opcodeField cmd).toNat = 5 then 4 else 0 := by
  have h : opcodeField cmd = 0x05#8 ↔ (opcodeField cmd).toNat = 5 :=
    ⟨fun h => by rw [h]; rfl, fun h => BitVec.eq_of_toNat_eq h⟩
  simp only [operandCount, h]

/-- A whole transaction is taken off the port in one piece. -/
theorem takeTransaction_whole {cmd : Word} {ops rest : List Word} (h : ops.length = operandCount cmd) :
    takeTransaction (cmd :: ops ++ rest) = some (cmd, ops, rest) := by
  simp [takeTransaction, ← h]

/-- What is taken off the port is the port's next words. -/
theorem takeTransaction_eq_some {ws ops rest : List Word} {cmd : Word}
    (h : takeTransaction ws = some (cmd, ops, rest)) :
    ws = cmd :: ops ++ rest ∧ ops.length = operandCount cmd := by
  cases ws with
  | nil => simp [takeTransaction] at h
  | cons c ws =>
    simp only [takeTransaction] at h
    split at h
    · cases h
    · cases h
      refine ⟨by simp, ?_⟩
      simp; omega

/-- A ready transaction takes at least its command word off the port. -/
theorem decode_command_length {ws rest : List Word} {i : Instr} (h : decode ws = .command i rest) :
    rest.length < ws.length := by
  simp only [decode] at h
  split at h
  · cases h
  · rename_i cmd ops rest' ht
    obtain ⟨rfl, _⟩ := takeTransaction_eq_some ht
    split at h <;> cases h
    simp

/-- An illegal transaction takes at least its command word off the port. -/
theorem decode_illegal_length {ws rest : List Word} {why : IllegalReason} (h : decode ws = .illegal why rest) :
    rest.length < ws.length := by
  simp only [decode] at h
  split at h
  · cases h
  · rename_i cmd ops rest' ht
    obtain ⟨rfl, _⟩ := takeTransaction_eq_some ht
    split at h <;> cases h
    simp

end Sys2Proof
end

