-- ==== Sys2Proof/Laws/State.lean ====
section
/-! SUPPORT. One lemma per field of `State` per shared update, so that no proof unfolds a record update. -/

namespace Sys2Proof.Machine

variable (s : State) (c i n : Nat) (f : Slot → Slot) (w t : Word) (v : Level) (ws : List Word)

@[simp] theorem respond_slots : (s.respond w).slots = s.slots := rfl
@[simp] theorem respond_notifyArmed : (s.respond w).notifyArmed = s.notifyArmed := rfl
@[simp] theorem respond_pending : (s.respond w).pending = s.pending := rfl
@[simp] theorem respond_timer : (s.respond w).timer = s.timer := rfl
@[simp] theorem respond_hostIn : (s.respond w).hostIn = s.hostIn := rfl
@[simp] theorem respond_response : (s.respond w).response = some w := rfl
@[simp] theorem respond_schedule : (s.respond w).schedule = s.schedule := rfl
@[simp] theorem respond_draws : (s.respond w).draws = s.draws := rfl

@[simp] theorem nextDraw_slots : s.nextDraw.slots = s.slots := rfl
@[simp] theorem nextDraw_notifyArmed : s.nextDraw.notifyArmed = s.notifyArmed := rfl
@[simp] theorem nextDraw_pending : s.nextDraw.pending = s.pending := rfl
@[simp] theorem nextDraw_timer : s.nextDraw.timer = s.timer := rfl
@[simp] theorem nextDraw_hostIn : s.nextDraw.hostIn = s.hostIn := rfl
@[simp] theorem nextDraw_response : s.nextDraw.response = s.response := rfl
@[simp] theorem nextDraw_schedule : s.nextDraw.schedule = s.schedule := rfl
@[simp] theorem nextDraw_draws : s.nextDraw.draws = s.draws + 1 := rfl

@[simp] theorem updateSlot_slots : (s.updateSlot c f).slots = s.slots.modify c f := rfl
@[simp] theorem updateSlot_notifyArmed : (s.updateSlot c f).notifyArmed = s.notifyArmed := rfl
@[simp] theorem updateSlot_pending : (s.updateSlot c f).pending = s.pending := rfl
@[simp] theorem updateSlot_timer : (s.updateSlot c f).timer = s.timer := rfl
@[simp] theorem updateSlot_hostIn : (s.updateSlot c f).hostIn = s.hostIn := rfl
@[simp] theorem updateSlot_response : (s.updateSlot c f).response = s.response := rfl
@[simp] theorem updateSlot_schedule : (s.updateSlot c f).schedule = s.schedule := rfl
@[simp] theorem updateSlot_draws : (s.updateSlot c f).draws = s.draws := rfl

@[simp] theorem capture_slots : s.capture.slots = s.slots.map (Slot.capture s.timer) := rfl
@[simp] theorem capture_notifyArmed : s.capture.notifyArmed = s.notifyArmed := rfl
@[simp] theorem capture_pending : s.capture.pending = false := rfl
@[simp] theorem capture_timer : s.capture.timer = s.timer := rfl
@[simp] theorem capture_hostIn : s.capture.hostIn = s.hostIn := rfl
@[simp] theorem capture_response : s.capture.response = s.response := rfl
@[simp] theorem capture_schedule : s.capture.schedule = s.schedule := rfl
@[simp] theorem capture_draws : s.capture.draws = s.draws := rfl

@[simp] theorem setTimer_slots : (s.setTimer t).slots = s.slots := rfl
@[simp] theorem setTimer_notifyArmed : (s.setTimer t).notifyArmed = s.notifyArmed := rfl
@[simp] theorem setTimer_pending : (s.setTimer t).pending = s.pending := rfl
@[simp] theorem setTimer_timer : (s.setTimer t).timer = t := rfl
@[simp] theorem setTimer_hostIn : (s.setTimer t).hostIn = s.hostIn := rfl
@[simp] theorem setTimer_response : (s.setTimer t).response = s.response := rfl
@[simp] theorem setTimer_schedule : (s.setTimer t).schedule = s.schedule := rfl
@[simp] theorem setTimer_draws : (s.setTimer t).draws = s.draws := rfl

@[simp] theorem drawTimer_slots : s.drawTimer.slots = s.slots := rfl
@[simp] theorem drawTimer_notifyArmed : s.drawTimer.notifyArmed = s.notifyArmed := rfl
@[simp] theorem drawTimer_pending : s.drawTimer.pending = s.pending := rfl
@[simp] theorem drawTimer_timer : s.drawTimer.timer = Config.timerSample s.draws := rfl
@[simp] theorem drawTimer_hostIn : s.drawTimer.hostIn = s.hostIn := rfl
@[simp] theorem drawTimer_response : s.drawTimer.response = s.response := rfl
@[simp] theorem drawTimer_schedule : s.drawTimer.schedule = s.schedule := rfl
@[simp] theorem drawTimer_draws : s.drawTimer.draws = s.draws + 1 := rfl

/-- Everything a level change can do: the level input of line `i`, and `pending` where the line is armed. -/
theorem setLevel_cases :
    s.setLevel i v = s ∨
      ∃ sl, s.slots[i]? = some sl ∧ sl.level ≠ v ∧
        s.setLevel i v =
          { s with slots := s.slots.modify i (fun x => { x with level := v }), pending := s.pending || sl.mask } := by
  unfold State.setLevel
  split
  · exact .inl rfl
  · rename_i sl h
    split
    · exact .inl rfl
    · exact .inr ⟨sl, h, ‹_›, rfl⟩

@[simp] theorem setLevel_notifyArmed : (s.setLevel i v).notifyArmed = s.notifyArmed := by
  obtain h | ⟨_, _, _, h⟩ := setLevel_cases s i v <;> simp [h]

@[simp] theorem setLevel_timer : (s.setLevel i v).timer = s.timer := by
  obtain h | ⟨_, _, _, h⟩ := setLevel_cases s i v <;> simp [h]

@[simp] theorem setLevel_hostIn : (s.setLevel i v).hostIn = s.hostIn := by
  obtain h | ⟨_, _, _, h⟩ := setLevel_cases s i v <;> simp [h]

@[simp] theorem setLevel_response : (s.setLevel i v).response = s.response := by
  obtain h | ⟨_, _, _, h⟩ := setLevel_cases s i v <;> simp [h]

@[simp] theorem setLevel_schedule : (s.setLevel i v).schedule = s.schedule := by
  obtain h | ⟨_, _, _, h⟩ := setLevel_cases s i v <;> simp [h]

@[simp] theorem setLevel_draws : (s.setLevel i v).draws = s.draws := by
  obtain h | ⟨_, _, _, h⟩ := setLevel_cases s i v <;> simp [h]

/-- A level change never clears `pending` (R125). -/
theorem setLevel_pending_of_pending (h : s.pending = true) : (s.setLevel i v).pending = true := by
  obtain h' | ⟨_, _, _, h'⟩ := setLevel_cases s i v <;> simp [h', h]

end Sys2Proof.Machine
end

