-- ==== Sys2Proof/Laws/Exec.lean ====
section
/-! SUPPORT. What each meaning, turn and step can do, said once: later proofs cite these and unfold nothing. -/

namespace Sys2Proof.Machine

variable {s t : State} {i : Instr}

/-- GETCHANNEL writes the response and, when it draws, the count of draws. -/
theorem getChannel_cases (s : State) (c : Nat) :
    ∃ w d, s.getChannel c = { s with response := some w, draws := d } := by
  unfold State.getChannel
  split
  · exact ⟨0, s.draws, rfl⟩
  · split
    · unfold State.respondF32
      split
      · exact ⟨_, s.draws, rfl⟩
      · exact ⟨_, s.draws + 1, rfl⟩
    · exact ⟨_, s.draws + 1, rfl⟩

/-- Everything a host command can do. -/
theorem exec_cases (h : exec i s = .next t) :
    (i = .init ∧ t = { s with notifyArmed := true, response := some 0 }) ∨
    (∃ c, i = .enable c ∧ t = { s with slots := s.slots.modify c Slot.enable, response := some 0 }) ∨
    (∃ c, i = .disable c ∧ t = { s with slots := s.slots.modify c Slot.disable, response := some 0 }) ∨
    (∃ c lo hi a b, i = .setmap c lo hi a b ∧ c < s.N ∧ degenerateMapping lo hi a b = false ∧
      t = { s with slots := s.slots.modify c (fun sl => { sl with map := ⟨lo, hi, a, b, true⟩ }),
                   response := some 1 }) ∨
    (∃ w d, t = { s with response := some w, draws := d }) := by
  cases i with
  | init => exact .inl ⟨rfl, (Host.Outcome.next.inj h).symm⟩
  | enable c => exact .inr (.inl ⟨c, rfl, (Host.Outcome.next.inj h).symm⟩)
  | disable c => exact .inr (.inr (.inl ⟨c, rfl, (Host.Outcome.next.inj h).symm⟩))
  | lastwidth c => exact .inr (.inr (.inr (.inr ⟨_, s.draws, (Host.Outcome.next.inj h).symm⟩)))
  | setmap c lo hi a b =>
    have h' := (Host.Outcome.next.inj h).symm
    by_cases ha : s.acceptsMapping c lo hi a b = true
    · rw [if_pos ha] at h'
      simp only [State.acceptsMapping, State.valid, Bool.and_eq_true, decide_eq_true_eq, Bool.not_eq_true'] at ha
      exact .inr (.inr (.inr (.inl ⟨c, lo, hi, a, b, rfl, ha.1, ha.2, h'⟩)))
    · rw [if_neg ha] at h'
      exact .inr (.inr (.inr (.inr ⟨0, s.draws, h'⟩)))
  | getchannel c =>
    obtain ⟨w, d, hw⟩ := getChannel_cases s c
    have h' : s.getChannel c = t := Host.Outcome.next.inj h
    exact .inr (.inr (.inr (.inr ⟨w, d, h'.symm.trans hw⟩)))

/-- Every host command answers a next state and a response. -/
theorem exec_next (i : Instr) (s : State) : ∃ t, exec i s = .next t := by
  cases i <;> exact ⟨_, rfl⟩

/-- The host's turn: it waits, or performs the next transaction, legal or not. -/
theorem hostTurn_cases (s : State) :
    (decode s.hostIn = .waiting ∧ s.hostTurn = .next s) ∨
    (∃ i rest, decode s.hostIn = .command i rest ∧ s.hostTurn = exec i { s with hostIn := rest }) ∨
    (∃ why rest, decode s.hostIn = .illegal why rest ∧
      s.hostTurn = .next { s with hostIn := rest, response := some 0 }) := by
  unfold State.hostTurn
  split
  · exact .inl ⟨‹_›, rfl⟩
  · exact .inr (.inl ⟨_, _, ‹_›, rfl⟩)
  · exact .inr (.inr ⟨_, _, ‹_›, rfl⟩)

/-- Everything a step can do, from the state `s₀` that it makes of `s` by taking a turn off the schedule, counting
draws and moving the timer input. -/
theorem step_cases (h : step s = .next t) :
    ∃ turns d now, let s₀ : State := { s with schedule := turns, draws := d, timer := now }
      t = s₀ ∨
      (∃ i rest, decode s.hostIn = .command i rest ∧ exec i { s₀ with hostIn := rest } = .next t) ∨
      (∃ why rest, decode s.hostIn = .illegal why rest ∧ t = { s₀ with hostIn := rest, response := some 0 }) ∨
      (s.captureEnabled = true ∧ t = s₀.capture) ∨
      (∃ i v, t = s₀.setLevel i v) := by
  have host : ∀ u : State, u.hostIn = s.hostIn → u.hostTurn = .next t →
      t = u ∨ (∃ i rest, decode s.hostIn = .command i rest ∧ exec i { u with hostIn := rest } = .next t) ∨
        (∃ why rest, decode s.hostIn = .illegal why rest ∧ t = { u with hostIn := rest, response := some 0 }) := by
    intro u hu hn
    rw [← hu]
    obtain ⟨_, he⟩ | ⟨i, rest, hd, he⟩ | ⟨why, rest, hd, he⟩ := hostTurn_cases u <;> rw [he] at hn
    · exact .inl (Host.Outcome.next.inj hn).symm
    · exact .inr (.inl ⟨i, rest, hd, hn⟩)
    · exact .inr (.inr ⟨why, rest, hd, (Host.Outcome.next.inj hn).symm⟩)
  cases hs : s.schedule with
  | cons turn turns =>
    simp only [step, hs] at h
    cases turn with
    | host =>
      refine ⟨turns, s.draws, s.timer, ?_⟩
      obtain h' | h' | h' := host { s with schedule := turns } rfl h
      · exact .inl h'
      · exact .inr (.inl h')
      · exact .inr (.inr (.inl h'))
    | capture =>
      refine ⟨turns, s.draws, s.timer, ?_⟩
      have h' := (Host.Outcome.next.inj h).symm
      by_cases hc : s.captureEnabled = true
      · exact .inr (.inr (.inr (.inl ⟨hc, h'.trans (if_pos hc)⟩)))
      · exact .inl (h'.trans (if_neg hc))
    | level i v =>
      exact ⟨turns, s.draws, s.timer, .inr (.inr (.inr (.inr ⟨i, v, (Host.Outcome.next.inj h).symm⟩)))⟩
    | timer now => exact ⟨turns, s.draws, now, .inl (Host.Outcome.next.inj h).symm⟩
  | nil =>
    simp only [step, hs, State.unscheduledTurn] at h
    split at h
    · rename_i hc
      split at h
      · refine ⟨s.schedule, s.draws + 1, s.timer, ?_⟩
        obtain h' | h' | h' := host _ (nextDraw_hostIn s) h
        · exact .inl h'
        · exact .inr (.inl h')
        · exact .inr (.inr (.inl h'))
      · exact ⟨s.schedule, s.draws + 1 + 1, Config.timerSample (s.draws + 1),
          .inr (.inr (.inr (.inl ⟨hc, (Host.Outcome.next.inj h).symm⟩)))⟩
    · split at h
      · refine ⟨s.schedule, s.draws, s.timer, ?_⟩
        obtain h' | h' | h' := host _ rfl h
        · exact .inl h'
        · exact .inr (.inl h')
        · exact .inr (.inr (.inl h'))
      · exact ⟨s.schedule, s.draws, s.timer, .inl (Host.Outcome.next.inj h).symm⟩

end Sys2Proof.Machine
end

