-- ==== Sys2Proof/Laws/Float.lean ====
section
/-! SUPPORT. The shared operations of the binary32 arithmetic, one specification each. -/

namespace Sys2Proof.Machine

/-- A magnitude's significand has at most 24 bits. -/
theorem lt_of_ulpShift (units : Nat) : units < 2 ^ 24 * 2 ^ ulpShift units := by
  have h := Nat.lt_log2_self (n := units)
  have hp : 2 ^ (units.log2 + 1) ≤ 2 ^ (24 + ulpShift units) :=
    Nat.pow_le_pow_right (by decide) (by unfold ulpShift; omega)
  rw [← Nat.pow_add]
  omega

/-- A shifted significand has exactly 24 bits. -/
theorem le_of_ulpShift_pos {units : Nat} (h : 0 < ulpShift units) : 2 ^ 23 * 2 ^ ulpShift units ≤ units := by
  have hl : 23 + ulpShift units = units.log2 := by unfold ulpShift at *; omega
  rw [← Nat.pow_add, hl]
  exact Nat.log2_self_le (by rintro rfl; simp [ulpShift] at h)

/-- The shift of a magnitude below `2^(24 + k)` is at most `k`. -/
theorem ulpShift_le {units k : Nat} (h : units < 2 ^ 24 * 2 ^ k) : ulpShift units ≤ k := by
  by_cases h0 : units = 0
  · simp [h0, ulpShift]
  · have : units.log2 < 24 + k := (Nat.log2_lt h0).2 (by rwa [Nat.pow_add])
    unfold ulpShift
    omega

/-- The shift of a magnitude from `2^(23 + k)` on is at least `k`. -/
theorem le_ulpShift {units k : Nat} (h : 2 ^ 23 * 2 ^ k ≤ units) : k ≤ ulpShift units := by
  have hpos : 0 < 2 ^ 23 * 2 ^ k := by positivity
  have : 23 + k ≤ units.log2 := (Nat.le_log2 (by omega)).2 (by rwa [Nat.pow_add])
  unfold ulpShift
  omega

/-- `divNearestEven` is one of the two whole numbers around the quotient; it is at most half away, and even where it
is exactly half away. -/
theorem divNearestEven_spec (num : Nat) {den : Nat} (h : 0 < den) :
    (divNearestEven num den = num / den ∨ divNearestEven num den = num / den + 1) ∧
      2 * (divNearestEven num den * den) ≤ 2 * num + den ∧ 2 * num ≤ 2 * (divNearestEven num den * den) + den ∧
      ((2 * (divNearestEven num den * den) = 2 * num + den ∨ 2 * num = 2 * (divNearestEven num den * den) + den) →
        divNearestEven num den % 2 = 0) := by
  have hdm := Nat.div_add_mod num den
  have hlt := Nat.mod_lt num h
  rw [Nat.mul_comm] at hdm
  simp only [divNearestEven]
  split
  · refine ⟨.inl rfl, ?_, ?_, ?_⟩ <;> omega
  · split
    · refine ⟨.inr rfl, ?_, ?_, ?_⟩ <;> rw [Nat.add_mul] <;> omega
    · rcases Nat.mod_two_eq_zero_or_one (num / den) with he | he
      · refine ⟨.inl (by omega), ?_, ?_, ?_⟩ <;> rw [he] <;> simp <;> omega
      · refine ⟨.inr (by omega), ?_, ?_, ?_⟩ <;> rw [he] <;> (try rw [Nat.add_mul]) <;> omega

/-- A rounding answers a finite value or an infinity of the sign given. -/
theorem roundF32_cases (neg : Bool) (num den : Nat) :
    (roundUnits num den < f32Overflow ∧ roundF32 neg num den = .fin neg (roundUnits num den)) ∨
      (f32Overflow ≤ roundUnits num den ∧ roundF32 neg num den = .inf neg) := by
  unfold roundF32
  split
  · exact .inl ⟨‹_›, rfl⟩
  · exact .inr ⟨by omega, rfl⟩

/-- A whole number of units with a 24-bit significand is not changed by rounding. -/
theorem roundUnits_of_dvd {units : Nat} (h : 2 ^ ulpShift units ∣ units) : roundUnits units 1 = units := by
  obtain ⟨k, hk⟩ := h
  have hp : 0 < 2 ^ ulpShift units := by positivity
  have hd : units / (1 * 2 ^ ulpShift units) = k := by
    rw [Nat.one_mul]
    exact Nat.div_eq_of_eq_mul_right hp hk
  have hm : units % (1 * 2 ^ ulpShift units) = 0 := by
    rw [Nat.one_mul]
    exact Nat.mod_eq_zero_of_dvd ⟨k, hk⟩
  have hn : divNearestEven units (1 * 2 ^ ulpShift units) = k := by
    simp only [divNearestEven, hd, hm]
    rw [if_pos (by omega)]
  simp only [roundUnits, Nat.div_one, hn]
  rw [Nat.mul_comm, ← hk]

/-- Zero rounds to zero. -/
@[simp] theorem roundUnits_zero (den : Nat) : roundUnits 0 den = 0 := by
  simp [roundUnits, divNearestEven, ulpShift]

@[simp] theorem roundF32_zero (neg : Bool) (den : Nat) : roundF32 neg 0 den = .fin neg 0 := by
  simp [roundF32]

@[simp] theorem f32add_nan_left (v : F32) : f32add .nan v = .nan := rfl

@[simp] theorem f32add_nan_right (v : F32) : f32add v .nan = .nan := by cases v <;> rfl

@[simp] theorem f32mul_nan_left (v : F32) : f32mul .nan v = .nan := rfl

@[simp] theorem f32mul_nan_right (v : F32) : f32mul v .nan = .nan := by cases v <;> rfl

@[simp] theorem f32div_nan_left (v : F32) : f32div .nan v = .nan := rfl

@[simp] theorem f32div_nan_right (v : F32) : f32div v .nan = .nan := by cases v <;> rfl

end Sys2Proof.Machine
end

