-- ==== Sys2Proof/Laws/Patterns.lean ====
section
/-! SUPPORT. Which magnitudes binary32 patterns encode, and the fields of a pattern. -/

namespace Sys2Proof.Machine

/-- A magnitude, in units of `2^-149`, whose significand fits 24 bits and which is below the overflow: what a finite
pattern encodes. -/
def IsRepresentable (m : Nat) : Prop := m < f32Overflow ∧ 2 ^ ulpShift m ∣ m

/-- The overflow as a 24-bit significand and its shift. -/
theorem f32Overflow_eq : f32Overflow = 2 ^ 24 * 2 ^ 253 := by decide +kernel

/-- The shift of a 24-bit significand with its top bit set. -/
theorem ulpShift_eq {k j : Nat} (h1 : 2^23 ≤ k) (h2 : k < 2^24) : ulpShift (k * 2^j) = j := by
  apply le_antisymm
  · exact ulpShift_le (Nat.mul_lt_mul_of_pos_right h2 (by positivity))
  · exact le_ulpShift (Nat.mul_le_mul_right _ h1)

/-- Magnitudes below `2^24` are not shifted. -/
theorem ulpShift_small {m : Nat} (h : m < 2^24) : ulpShift m = 0 := by
  have := ulpShift_le (units := m) (k := 0) (by simpa using h); omega

/-- The significand of a representable magnitude. -/
theorem isRepresentable_significand {m : Nat} (h : IsRepresentable m) :
    ∃ k, m = k * 2 ^ ulpShift m ∧ k < 2^24 ∧ (0 < ulpShift m → 2^23 ≤ k) ∧ ulpShift m ≤ 253 ∧
    magnitudeBits m = 2^23 * ulpShift m + k := by
  obtain ⟨ho, k, hk⟩ := h
  have hp : 0 < 2 ^ ulpShift m := by positivity
  rw [Nat.mul_comm] at hk
  refine ⟨k, hk, ?_, ?_, ?_, ?_⟩
  · have := lt_of_ulpShift m
    rw [hk] at this
    have h2 : ulpShift (k * 2 ^ ulpShift m) = ulpShift m := by rw [← hk]
    rw [h2] at this
    exact Nat.lt_of_mul_lt_mul_right this
  · intro h0
    have := le_of_ulpShift_pos h0
    have h3 : 2 ^ 23 * 2 ^ ulpShift m ≤ k * 2 ^ ulpShift m := hk ▸ this
    exact Nat.le_of_mul_le_mul_right h3 hp
  · exact ulpShift_le (f32Overflow_eq ▸ ho)
  · unfold magnitudeBits
    congr 1
    exact Nat.div_eq_of_eq_mul_left hp hk

/-- The pattern of a representable magnitude fits 32 bits and is below the infinities. -/
theorem isRepresentable_pattern {m : Nat} (h : IsRepresentable m) (neg : Bool) : 
   (BitVec.ofNat 32 (signBits neg + magnitudeBits m)).toNat = signBits neg + magnitudeBits m ∧
     magnitudeBits m < 255 * 2^23 := by
  obtain ⟨k, hk, h1, h2, h3, h4⟩ := isRepresentable_significand h
  have : magnitudeBits m < 255 * 2^23 := by 
    rw [h4]
    rcases Nat.lt_or_ge (ulpShift m) 253 with h | h <;> omega
  refine ⟨?_, this⟩
  rw [BitVec.toNat_ofNat, Nat.mod_eq_of_lt]
  cases neg <;> simp [signBits] <;> omega

/-- The exponent field as a quotient. -/
theorem exponentField_eq (w : Word) : exponentField w = w.toNat / 2^23 % 2^8 := by
  simp [exponentField, BitVec.extractLsb'_toNat, Nat.shiftRight_eq_div_pow]
/-- The fraction field as a remainder. -/
theorem fractionField_eq (w : Word) : fractionField w = w.toNat % 2^23 := by
  simp [fractionField, BitVec.extractLsb'_toNat]
/-- The sign bit as a comparison. -/
theorem msb_eq (w : Word) : w.msb = decide (2^31 ≤ w.toNat) := by
  rw [BitVec.msb_eq_decide]

/-- The pattern of a representable magnitude encodes it. -/
theorem asf32_pattern_of_isRepresentable {m : Nat} (h : IsRepresentable m) (neg : Bool) :
    asf32 (BitVec.ofNat 32 (signBits neg + magnitudeBits m)) = .fin neg m := by
  obtain ⟨k, hk, h1, h2, h3, h4⟩ := isRepresentable_significand h
  obtain ⟨hn, hb⟩ := isRepresentable_pattern h neg
  have hs : signBits neg = 0 ∧ neg = false ∨ signBits neg = 2^31 ∧ neg = true := by cases neg <;> simp [signBits]
  generalize BitVec.ofNat 32 (signBits neg + magnitudeBits m) = w at *
  have hmsb : w.msb = neg := by
    rw [msb_eq, hn]
    rcases hs with ⟨hs, rfl⟩ | ⟨hs, rfl⟩ <;> rw [hs] <;> simp <;> omega
  have he : exponentField w = ulpShift m + k / 2^23 := by
    rw [exponentField_eq, hn, h4]
    rcases hs with ⟨hs, _⟩ | ⟨hs, _⟩ <;> rw [hs] <;> omega
  have hf : fractionField w = k % 2^23 := by
    rw [fractionField_eq, hn, h4]
    rcases hs with ⟨hs, _⟩ | ⟨hs, _⟩ <;> rw [hs] <;> omega
  unfold asf32
  rw [hmsb, he, hf]
  have : ulpShift m + k / 2^23 ≠ 255 := by omega
  rw [if_neg this]
  split
  · have h0 : ulpShift m = 0 := by omega
    rw [h0] at hk
    simp at hk
    congr 1; omega
  · have hk23 : 2^23 ≤ k := by
      by_contra hc
      have : ¬ 0 < ulpShift m := fun h => hc (h2 h)
      omega
    congr 1
    have e1 : 2^23 + k % 2^23 = k := by omega
    have e2 : ulpShift m + k / 2^23 - 1 = ulpShift m := by omega
    rw [e1, e2]; exact hk.symm

/-- A word is its three fields. -/
theorem toNat_eq_fields (w : Word) : w.toNat = signBits w.msb + (2^23 * exponentField w + fractionField w) := by
  have := w.isLt
  rw [msb_eq, exponentField_eq, fractionField_eq]
  by_cases h : 2^31 ≤ w.toNat
  · rw [decide_eq_true h]; simp only [signBits, if_true]; omega
  · rw [decide_eq_false h]; simp only [signBits]; simp only [Bool.false_eq_true, if_false]; omega

/-- A finite pattern's value has a representable magnitude, and the pattern is that of the value. -/
theorem isRepresentable_of_asf32 {w : Word} {neg m} (h : asf32 w = .fin neg m) :
    IsRepresentable m ∧ w = BitVec.ofNat 32 (signBits neg + magnitudeBits m) := by
  have hw := toNat_eq_fields w
  have hf : fractionField w < 2^23 := by rw [fractionField_eq]; omega
  have he' : exponentField w < 256 := by rw [exponentField_eq]; omega
  unfold asf32 at h
  split at h
  · split at h <;> cases h
  · rename_i h255
    split at h
    · rename_i he
      cases h
      have hu := ulpShift_small (m := fractionField w) (by omega)
      refine ⟨⟨by rw [f32Overflow_eq]; calc fractionField w < 2^23 := hf
                   _ ≤ _ := by decide +kernel, by rw [hu]; simp⟩, ?_⟩
      apply BitVec.eq_of_toNat_eq
      rw [hw, he]
      simp only [magnitudeBits, hu, BitVec.toNat_ofNat]
      rw [Nat.mod_eq_of_lt]
      · simp
      · cases w.msb <;> simp [signBits] <;> omega
    · rename_i he
      cases h
      have hu := ulpShift_eq (k := 2^23 + fractionField w) (j := exponentField w - 1) (by omega) (by omega)
      have hle : 2 ^ (exponentField w - 1) ≤ 2^253 := Nat.pow_le_pow_right (by decide) (by omega)
      have hp : 0 < 2 ^ (exponentField w - 1) := by positivity
      refine ⟨⟨?_, by rw [hu]; exact Nat.dvd_mul_left _ _⟩, ?_⟩
      · rw [f32Overflow_eq]
        exact Nat.mul_lt_mul_of_lt_of_le (by omega) hle (by positivity)
      · apply BitVec.eq_of_toNat_eq
        rw [hw]
        simp only [magnitudeBits, hu, BitVec.toNat_ofNat]
        rw [Nat.mul_div_cancel _ hp, Nat.mod_eq_of_lt]
        · omega
        · cases w.msb <;> simp [signBits] <;> omega

/-- The magnitudes some word encodes are the representable ones. -/
theorem isF32Magnitude_iff (m : Nat) : IsF32Magnitude m ↔ IsRepresentable m := by
  constructor
  · rintro ⟨w, h⟩; exact (isRepresentable_of_asf32 h).1
  · intro h; exact ⟨_, asf32_pattern_of_isRepresentable h false⟩

/-- A significand up to `2^24`, shifted and below the overflow, is representable. -/
theorem isRepresentable_mul_pow {k j : Nat} (hk : k ≤ 2^24) (ho : k * 2^j < f32Overflow) :
    IsRepresentable (k * 2^j) := by
  refine ⟨ho, ?_⟩
  rcases Nat.lt_or_ge k (2^24) with h | h
  · have := ulpShift_le (units := k * 2^j) (k := j) (Nat.mul_lt_mul_of_pos_right h (by positivity))
    exact Dvd.dvd.mul_left (pow_dvd_pow 2 this) _
  · have : k = 2^24 := by omega
    subst this
    have e : 2^24 * 2^j = 2^23 * 2^(j+1) := by rw [pow_succ]; ring
    rw [e, ulpShift_eq (by decide) (by decide)]
    exact Nat.dvd_mul_left _ _

end Sys2Proof.Machine
end

