-- ==== Sys2Proof/Laws/PerInstr.lean ====
section
/-! SUPPORT. Statements made per instruction. `EncodingFraming`: the encoding of a well-formed command is one
transaction, its command word followed by as many operand words as the framing asks for (spec/30_encoding.md R60,
R69). -/

namespace Sys2Proof.Laws.EncodingFraming

/-- The encoding of the command is one whole transaction. -/
def Statement (i : Instr) : Prop :=
  i.wellFormed = true → ∃ cmd ops, encode i = cmd :: ops ∧ ops.length = operandCount cmd

/-- The command word of a row is followed by the operand words of its opcode. -/
theorem operandCount_commandWord {op c : Nat} (hop : op < 256) (hc : c < 256) :
    operandCount (commandWord op c) = if op = 5 then 4 else 0 := by
  rw [operandCount_eq, opcodeField_commandWord hop hc]

theorem init : Statement .init := fun _ =>
  ⟨_, _, rfl, by rw [operandCount_commandWord (by decide) (by decide)]; rfl⟩

theorem enable (c : Nat) : Statement (.enable c) := fun h =>
  ⟨_, _, rfl, by rw [operandCount_commandWord (by decide) (of_decide_eq_true h)]; rfl⟩

theorem disable (c : Nat) : Statement (.disable c) := fun h =>
  ⟨_, _, rfl, by rw [operandCount_commandWord (by decide) (of_decide_eq_true h)]; rfl⟩

theorem lastwidth (c : Nat) : Statement (.lastwidth c) := fun h =>
  ⟨_, _, rfl, by rw [operandCount_commandWord (by decide) (of_decide_eq_true h)]; rfl⟩

theorem setmap (c : Nat) (rawMin rawMax outMin outMax : Word) :
    Statement (.setmap c rawMin rawMax outMin outMax) := fun h =>
  ⟨_, _, rfl, by rw [operandCount_commandWord (by decide) (of_decide_eq_true h)]; rfl⟩

theorem getchannel (c : Nat) : Statement (.getchannel c) := fun h =>
  ⟨_, _, rfl, by rw [operandCount_commandWord (by decide) (of_decide_eq_true h)]; rfl⟩

end Sys2Proof.Laws.EncodingFraming
end

