-- ==== Sys2Proof/Laws/Slots.lean ====
section
/-! SUPPORT. Reading a slot after it, or another, was written. -/

namespace Sys2Proof.Machine

variable {slots : List Slot} {c j : Nat} {f : Slot → Slot} {sl : Slot} {s : State}

theorem getElem?_modify_same (h : slots[c]? = some sl) : (slots.modify c f)[c]? = some (f sl) := by
  simp [h]

theorem getElem?_modify_ne (h : j ≠ c) : (slots.modify c f)[j]? = slots[j]? := by
  simp [h.symm]

/-- Writing a slot that does not exist writes nothing. -/
theorem modify_of_length_le (h : slots.length ≤ c) : slots.modify c f = slots := by
  apply List.ext_getElem?
  intro i
  rw [List.getElem?_modify]
  split
  · subst_vars
    rw [List.getElem?_eq_none h]
    rfl
  · exact Option.map_id' ..

/-- Making an idempotent write twice is making it once. -/
theorem modify_modify (h : ∀ x, f (f x) = f x) : (slots.modify c f).modify c f = slots.modify c f := by
  apply List.ext_getElem?
  intro i
  simp only [List.getElem?_modify]
  cases slots[i]?
  · simp
  · simp
    split <;> simp_all

theorem enable_enable (sl : Slot) : sl.enable.enable = sl.enable := rfl

theorem disable_disable (sl : Slot) : sl.disable.disable = sl.disable := rfl

/-- A level that changes. -/
theorem setLevel_of_ne {v : Level} (h : s.slots[c]? = some sl) (hv : v ≠ sl.level) :
    s.setLevel c v =
      { s with slots := s.slots.modify c (fun x => { x with level := v }), pending := s.pending || sl.mask } := by
  simp only [State.setLevel, h, hv.symm, if_false]
  rfl

/-- A write to a slot that leaves what `g` reads of it leaves what `g` reads of every slot. -/
theorem map_modify_eq {α : Type} {g : Slot → α} (h : ∀ x, g (f x) = g x) :
    (slots.modify c f).map g = slots.map g := by
  apply List.ext_getElem?
  intro i
  simp only [List.getElem?_map, List.getElem?_modify]
  cases slots[i]?
  · simp
  · simp
    split <;> simp_all

/-- What every command leaves alone, and that it answers. -/
theorem exec_frame {i : Instr} {t : State} (h : exec i s = .next t) :
    t.response ≠ none ∧ t.pending = s.pending ∧ t.timer = s.timer ∧ t.hostIn = s.hostIn ∧
      t.schedule = s.schedule ∧ t.N = s.N := by
  obtain ⟨_, rfl⟩ | ⟨c, _, rfl⟩ | ⟨c, _, rfl⟩ | ⟨c, _, _, _, _, _, _, _, rfl⟩ | ⟨_, _, rfl⟩ := exec_cases h <;>
    simp [State.N]

/-- Only INIT moves the arm bit, and it sets it. -/
theorem exec_notifyArmed {i : Instr} {t : State} (h : exec i s = .next t) :
    t.notifyArmed = s.notifyArmed ∨ (i = .init ∧ t.notifyArmed = true) := by
  obtain ⟨hi, rfl⟩ | ⟨c, _, rfl⟩ | ⟨c, _, rfl⟩ | ⟨c, _, _, _, _, _, _, _, rfl⟩ | ⟨_, _, rfl⟩ := exec_cases h <;>
    simp [*]

/-- A CAPTURE visit keeps what it does not own. -/
theorem slotCapture_keeps (now : Word) (sl : Slot) :
    (sl.capture now).ch.enabled = sl.ch.enabled ∧ (sl.capture now).map = sl.map ∧
      (sl.capture now).mask = sl.mask ∧ (sl.capture now).lineMode = sl.lineMode ∧
      (sl.capture now).level = sl.level := by
  unfold Slot.capture ChannelRecord.sample
  split
  · split
    · simp
    · split <;> simp
  · simp

/-- A CAPTURE visit to a disabled channel does nothing (R25). -/
theorem slotCapture_of_disabled (now : Word) (h : sl.ch.enabled = false) : sl.capture now = sl := by
  simp [Slot.capture, h]

/-- Everything a CAPTURE visit can do to a slot. -/
theorem slotCapture_cases (now : Word) (sl : Slot) :
    sl.capture now = sl ∨
    (sl.ch.enabled = true ∧ sl.ch.lastLevel = .low ∧ sl.level = .high ∧
      sl.capture now = { sl with ch := { sl.ch with lastRisingTimestamp := now, lastLevel := .high } }) ∨
    (sl.ch.enabled = true ∧ sl.ch.lastLevel = .high ∧ sl.level = .low ∧
      sl.capture now =
        { sl with ch :=
          { sl.ch with
            lastPulseWidth := wrap32 ((now.toNat : Int) - sl.ch.lastRisingTimestamp.toNat), lastLevel := .low } }) := by
  rcases sl with ⟨⟨enabled, lastLevel, rise, width⟩, map, mask, mode, level⟩
  cases enabled <;> cases lastLevel <;> cases level <;>
    simp [Slot.capture, ChannelRecord.sample, risingEdge, fallingEdge]

end Sys2Proof.Machine
end

