-- ==== Sys2Proof/Laws/Runs.lean ====
section
/-! SUPPORT. What turns, steps, the reset and the CAPTURE loop do to the fields. -/

namespace Sys2Proof.Machine

/-- The host's turn answers a next state. -/
theorem hostTurn_next (s : State) : ∃ t, s.hostTurn = .next t := by
  obtain ⟨_, h⟩ | ⟨i, rest, _, h⟩ | ⟨_, _, _, h⟩ := hostTurn_cases s
  · exact ⟨_, h⟩
  · rw [h]; exact exec_next _ _
  · exact ⟨_, h⟩

/-- A host turn that takes a transaction: `pending` and the turns stay, the port gets shorter, the arm bit is kept. -/
theorem hostTurn_frame {s t : State} (h : s.hostTurn = .next t) (hr : s.hostReady = true) :
   t.pending = s.pending ∧ t.schedule = s.schedule ∧ t.hostIn.length < s.hostIn.length ∧
     (s.notifyArmed = true → t.notifyArmed = true) := by
  obtain ⟨hw, h'⟩ | ⟨i, rest, hd, h'⟩ | ⟨_, rest, hd, h'⟩ := hostTurn_cases s
  · simp [State.hostReady, hw] at hr
  · rw [h'] at h
    obtain ⟨_, h1, h2, h3, h4, _⟩ := exec_frame h
    refine ⟨h1, h4, by rw [h3]; exact decode_command_length hd, ?_⟩
    intro ha
    obtain h | h := exec_notifyArmed h
    · rw [h]; exact ha
    · exact h.2
  · rw [h'] at h; cases h
    exact ⟨rfl, rfl, decode_illegal_length hd, id⟩

/-- No command writes a captured value or a level. -/
theorem exec_captureFields {i : Instr} {s t : State} (h : exec i s = .next t) :
    t.captureFields = s.captureFields ∧ t.levels = s.levels := by
  unfold State.captureFields State.levels
  obtain ⟨_, rfl⟩ | ⟨c, _, rfl⟩ | ⟨c, _, rfl⟩ | ⟨c, _, _, _, _, _, _, _, rfl⟩ | ⟨_, _, rfl⟩ := exec_cases h
  · exact ⟨rfl, rfl⟩
  · exact ⟨map_modify_eq fun _ => rfl, map_modify_eq fun _ => rfl⟩
  · exact ⟨map_modify_eq fun _ => rfl, map_modify_eq fun _ => rfl⟩
  · exact ⟨map_modify_eq fun _ => rfl, map_modify_eq fun _ => rfl⟩
  · exact ⟨rfl, rfl⟩

/-- A level change writes no field of either context. -/
theorem setLevel_fields (s : State) (i v) :
    (s.setLevel i v).captureFields = s.captureFields ∧ (s.setLevel i v).hostFields = s.hostFields := by
  unfold State.captureFields State.hostFields
  obtain h | ⟨_, _, _, h⟩ := setLevel_cases s i v <;> rw [h]
  · exact ⟨rfl, rfl⟩
  · exact ⟨map_modify_eq fun _ => rfl, map_modify_eq fun _ => rfl⟩

/-- A step leaves the captured values alone or is a CAPTURE step. -/
theorem step_captureFields {s t : State} (h : step s = .next t) :
    t.captureFields = s.captureFields ∨ t.slots = s.slots.map (Slot.capture t.timer) := by
  obtain ⟨turns, d, now, h | ⟨i, rest, hd, h⟩ | ⟨_, rest, hd, h⟩ | ⟨hc, h⟩ | ⟨i, v, h⟩⟩ := step_cases h
  · subst h; exact .inl rfl
  · exact .inl (exec_captureFields h).1
  · subst h; exact .inl rfl
  · subst h; exact .inr rfl
  · subst h; exact .inl (setLevel_fields _ _ _).1

/-- The slots after reset. -/
theorem resetSlots_get (p : Params) (k n i : Nat) :
    (resetSlots p k n)[i]? = if i < n then some (Slot.reset p (k+i)) else none := by
  induction n generalizing k i with
  | zero => simp [resetSlots]
  | succ n ih =>
    cases i with
    | zero => simp [resetSlots]
    | succ i => simp [resetSlots, ih]; simp [Nat.add_assoc, Nat.add_comm 1 i]

/-- Their number. -/
theorem resetSlots_length (p : Params) (k n : Nat) : (resetSlots p k n).length = n := by
  induction n generalizing k with
  | zero => rfl
  | succ n ih => simp [resetSlots, ih]

/-- What a loop of CAPTURE visits over distinct indices does to each slot. -/
theorem captureLoop_slots (now : Word) (order : List Nat) (hn : order.Nodup) (s : State) (j : Nat) :
    (order.foldl (State.captureChannel now) s).slots[j]? = if j ∈ order then s.slots[j]?.map (Slot.capture now) else s.slots[j]? := by
  induction order generalizing s with
  | nil => simp
  | cons a as ih =>
    rw [List.nodup_cons] at hn
    rw [List.foldl_cons, ih hn.2]
    simp only [State.captureChannel, updateSlot_slots, List.getElem?_modify, List.mem_cons]
    by_cases h : a = j
    · subst h; simp [hn.1]
    · have : ¬ j = a := fun h' => h h'.symm
      simp [h, this]

/-- It touches nothing but the slots. -/
theorem captureLoop_rest (now : Word) (order : List Nat) (s : State) :
    (order.foldl (State.captureChannel now) s) = { s with slots := (order.foldl (State.captureChannel now) s).slots } := by
  induction order generalizing s with
  | nil => rfl
  | cons a as ih => rw [List.foldl_cons, ih]; rfl

end Sys2Proof.Machine
end

