-- ==== Sys2Proof/Tests/Slice0.lean ====
section
/-! SUPPORT. Tests: ill-formed commands, words written out from spec/30_encoding.md, single steps with the expected
results of spec/95_test_vectors.md (its numbers V and S stand in the docstrings), and for every statement with
hypotheses a theorem whose concrete values meet them. -/

namespace Sys2Proof.Tests

open Sys2Proof Sys2Proof.Machine

/-! ### Well-formedness: a channel index of nine bits is refused (R62) -/

theorem test_wellFormed_enable : (Instr.enable 256).wellFormed = false ∧ (Instr.enable 255).wellFormed = true := by
  decide

theorem test_wellFormed_disable : (Instr.disable 256).wellFormed = false := by decide

theorem test_wellFormed_lastwidth : (Instr.lastwidth 300).wellFormed = false := by decide

theorem test_wellFormed_setmap : (Instr.setmap 256 0 1 0 1).wellFormed = false := by decide

theorem test_wellFormed_getchannel : (Instr.getchannel 256).wellFormed = false := by decide

/-! ### Decoding, words from the tables of R64 and R77 -/

theorem test_decode_init : decode [0x01000000#32] = .command .init [] := by decide

theorem test_decode_enable : decode [0x02000003#32] = .command (.enable 3) [] := by decide

theorem test_decode_disable : decode [0x03000007#32] = .command (.disable 7) [] := by decide

theorem test_decode_lastwidth : decode [0x040000FF#32] = .command (.lastwidth 255) [] := by decide

theorem test_decode_setmap :
    decode [0x05000000#32, 0x000003E8#32, 0x000007D0#32, 0xBF800000#32, 0x3F800000#32, 0x01000000#32] =
      .command (.setmap 0 1000#32 2000#32 0xBF800000#32 0x3F800000#32) [0x01000000#32] := by decide

theorem test_decode_getchannel : decode [0x06000080#32] = .command (.getchannel 128) [] := by decide

/-- Bit by bit from R61 and R64: opcode `0x02`, reserved bits zero, channel 8 (V7). -/
theorem test_decode_enable_bits : decode [0b00000010000000000000000000001000#32] = .command (.enable 8) [] := by decide

/-- V1 to V3: an unknown opcode. -/
theorem test_decode_unknown_opcode :
    decode [0x00000000#32] = .illegal .unknownOpcode [] ∧ decode [0x07000000#32] = .illegal .unknownOpcode [] ∧
      decode [0xFF000003#32] = .illegal .unknownOpcode [] := by decide

/-- V4: a reserved bit set. -/
theorem test_decode_reserved : decode [0x02000103#32] = .illegal .reservedNotZero [] := by decide

/-- V5. -/
theorem test_decode_init_channel : decode [0x01000005#32] = .illegal .initChannelNotZero [] := by decide

/-- V6: an illegal SETMAP takes its four operand words; the sixth word is the next command. -/
theorem test_decode_illegal_setmap :
    decode [0x05800000#32, 0x000003E8#32, 0x000007D0#32, 0xBF800000#32, 0x3F800000#32, 0x04000000#32] =
      .illegal .reservedNotZero [0x04000000#32] := by decide

/-- R60: the block decodes only when it has all the operand words. -/
theorem test_decode_waiting : decode [0x05000000#32, 1#32, 2#32, 3#32] = .waiting ∧ decode [] = .waiting := by decide

theorem test_decodeTableWord :
    decodeTableWord 32 0x01000000 = some .init ∧ decodeTableWord 32 0x05000002 = some (.setmap 2 0 0 0 0) ∧
      decodeTableWord 32 0x07000000 = none := by decide

/-! ### One step from a small state: eight channels, INIT done (the conventions of the vectors) -/

def params8 : Params :=
  { lastChannel := 7, lineResetMode := fun _ => .output, disabledDriveLevel := fun _ => .low,
    levelAtReset := fun _ => .low, timerAtReset := 0 }

def start : State := { State.resetWith params8 with notifyArmed := true }

/-- `start` with a channel record, arm bit and level at index `c`. -/
def withChannel (c : Nat) (ch : ChannelRecord) (level : Level) (s : State) : State :=
  s.updateSlot c fun sl =>
    { sl with ch := ch, mask := ch.enabled, lineMode := if ch.enabled then .input else .output, level := level }

/-- The state with a mapping at index `c`. -/
def withMapping (c : Nat) (m : MappingRecord) (s : State) : State := s.updateSlot c fun sl => { sl with map := m }

/-- The state after a step, `start` where there is none. -/
def nextOf : Host.Outcome State Fault Refusal → State
  | .next t => t
  | _ => start

/-- Channel record `c` after a step. -/
def chAfter (o : Host.Outcome State Fault Refusal) (c : Nat) : Option ChannelRecord := (nextOf o).slots[c]?.map Slot.ch

def defaultMapping : MappingRecord := ⟨1000, 2000, 0xBF800000, 0x3F800000, true⟩

/-- V9. -/
theorem test_init : exec .init (State.resetWith params8) = .next { start with response := some 0 } := by rfl

/-- V13: ENABLE keeps the record. -/
theorem test_enable_keeps_record :
    chAfter (exec (.enable 3) (withChannel 3 ⟨false, .high, 500, 77⟩ .low start)) 3 = some ⟨true, .high, 500, 77⟩ := by
  decide

/-- V14. -/
theorem test_enable_invalid : exec (.enable 8) start = .next { start with response := some 0 } := by rfl

/-- V15: the mask is cleared, the line is an output, `pending` stays. -/
theorem test_disable :
    let t := nextOf (exec (.disable 3) { withChannel 3 ⟨true, .low, 0, 1500⟩ .low start with pending := true })
    t.slots[3]? = some ⟨⟨false, .low, 0, 1500⟩, .reset, false, .output, .low⟩ ∧ t.pending = true := by decide

/-- V17: DISABLE of a channel never enabled turns its line to output. -/
theorem test_disable_never_enabled :
    (nextOf (exec (.disable 4) (State.resetWith { params8 with lineResetMode := fun _ => .input }))).slots[4]?.map
      Slot.lineMode = some .output := by decide

/-- V20: a disabled channel answers its frozen width. -/
theorem test_lastwidth_disabled :
    (nextOf (exec (.lastwidth 2) (withChannel 2 ⟨false, .low, 100, 250⟩ .low start))).response = some 0x000000FA := by
  decide

/-- V21. -/
theorem test_lastwidth_invalid : exec (.lastwidth 8) start = .next { start with response := some 0 } := by rfl

/-- V42. -/
theorem test_setmap_accepts :
    let t := nextOf (exec (.setmap 0 1000 2000 0xBF800000 0x3F800000) start)
    t.slots[0]?.map Slot.map = some defaultMapping ∧ t.response = some 1 := by decide +kernel

/-- V45, V48 and V53: the two zeros are equal, a NaN is not equal to itself, a rejection keeps the old mapping. -/
theorem test_setmap_equality :
    (nextOf (exec (.setmap 0 1000 2000 0 0x80000000) start)).response = some 0 ∧
    (nextOf (exec (.setmap 0 1000 2000 0x7FC00000 0x7FC00000) start)).response = some 1 ∧
    (nextOf (exec (.setmap 0 5 5 0 0x3F800000) (withMapping 0 defaultMapping start))).slots[0]?.map Slot.map =
      some defaultMapping := by decide +kernel

/-- V67: 1700 maps to the pattern just below the one nearest to 0.4. -/
theorem test_getchannel :
    (nextOf (exec (.getchannel 0)
      (withMapping 0 defaultMapping (withChannel 0 ⟨true, .low, 5000, 1700⟩ .low start)))).response =
        some 0x3ECCCCCC := by decide +kernel

/-- V95: a NaN answer is some NaN encoding; nothing else moves but the count of draws. -/
theorem test_getchannel_nan :
    exec (.getchannel 0) (withMapping 0 ⟨1000, 2000, 0x7FC00000, 0x3F800000, true⟩ start) =
      .next { withMapping 0 ⟨1000, 2000, 0x7FC00000, 0x3F800000, true⟩ start with
        response := some (nanResult 0), draws := 1 } := by
  show Host.Outcome.next _ = _
  simp only [State.getChannel, withMapping, State.updateSlot, start, State.resetWith]
  rfl

/-! ### CAPTURE (R84) -/

/-- Channel record 0 after one `CAPTURE @ t`. -/
def captureAt (ch : ChannelRecord) (level : Level) (t : Word) : Option ChannelRecord :=
  chAfter (step { withChannel 0 ch level start with pending := true, timer := t, schedule := [.capture] }) 0

/-- V22 to V25. -/
theorem test_capture_edges :
    captureAt ⟨true, .low, 7, 9⟩ .high 1234 = some ⟨true, .high, 1234, 9⟩ ∧
    captureAt ⟨true, .high, 7, 9⟩ .high 1234 = some ⟨true, .high, 7, 9⟩ ∧
    captureAt ⟨true, .high, 7, 9⟩ .low 1234 = some ⟨true, .low, 7, 1227⟩ ∧
    captureAt ⟨true, .low, 7, 9⟩ .low 1234 = some ⟨true, .low, 7, 9⟩ := by decide +kernel

/-- V26 to V29. -/
theorem test_capture_corners :
    captureAt ⟨true, .high, 0xFFFFFFCD, 0⟩ .low 49 = some ⟨true, .low, 0xFFFFFFCD, 100⟩ ∧
    captureAt ⟨true, .high, 1, 0⟩ .low 0 = some ⟨true, .low, 1, 0xFFFFFFFF⟩ ∧
    captureAt ⟨true, .high, 500, 9⟩ .low 500 = some ⟨true, .low, 500, 0⟩ ∧
    captureAt ⟨false, .low, 7, 9⟩ .high 1234 = some ⟨false, .low, 7, 9⟩ := by decide

/-- V34 and V35: without `notifyArmed`, or without `pending`, the engine's turn does nothing. -/
theorem test_capture_not_enabled :
    (nextOf (step { start with notifyArmed := false, pending := true, schedule := [.capture] })).pending = true ∧
    chAfter (step { withChannel 0 ⟨true, .low, 0, 0⟩ .high start with schedule := [.capture] }) 0 =
      some ⟨true, .low, 0, 0⟩ := by decide

/-- V39 and V40: `pending` is set where the mask is set, armed or not. -/
theorem test_level_change :
    (nextOf (step { start with schedule := [.level 2 .high] })).pending = false ∧
    (nextOf (step { withChannel 2 ⟨true, .low, 0, 0⟩ .low (State.resetWith params8) with
      schedule := [.level 2 .high] })).pending = true := by decide

/-- V6: an illegal transaction writes nothing, answers 0 and leaves the next command at the port. -/
theorem test_step_illegal :
    step { start with
      hostIn := [0x05800000#32, 0x000003E8#32, 0x000007D0#32, 0xBF800000#32, 0x3F800000#32, 0x04000000#32],
      schedule := [.host] } =
      .next { start with hostIn := [0x04000000#32], response := some 0 } := by rfl

/-! ### The mapping (V63, V65, V73, V75, V78, V80, V81, V84, V85, V90, V94) -/

theorem test_mapping_order_and_sign :
    bits32 (mapEval 500 defaultMapping) = some 0xC0000000 ∧ bits32 (mapEval 100 defaultMapping) = some 0xC0333333 ∧
    bits32 (mapEval 1500 ⟨2000, 1000, 0xBF800000, 0x3F800000, true⟩) = some 0 ∧
    bits32 (mapEval 2000 ⟨2000, 1000, 0xBF800000, 0x3F800000, true⟩) = some 0xBF800000 ∧
    bits32 (mapEval 0 ⟨4294967295, 0, 0, 0x3F800000, true⟩) = some 0x3F800000 := by decide +kernel

theorem test_mapping_rounding :
    bits32 (mapEval 1 ⟨0, 16777217, 0, 0x3F800000, true⟩) = some 0x33800000 ∧
    bits32 (mapEval 1 ⟨0, 3, 0, 0x3F800000, true⟩) = some 0x3EAAAAAB ∧
    bits32 (mapEval 1000 ⟨1000, 2000, 0x00000001, 0x3F800000, true⟩) = some 0x00000001 ∧
    bits32 (mapEval 1000 ⟨1000, 2000, 0x80000000, 0x3F800000, true⟩) = some 0x00000000 ∧
    mapEval 1500 ⟨1000, 2000, 0xFF800000, 0x3F800000, true⟩ = .nan ∧
    bits32 (mapEval 2147483647 ⟨0, 1, 0, 0x7149F2CA, true⟩) = some 0x7F800000 := by decide +kernel

/-! ### The assembly notation (R70 to R74, R77) -/

theorem test_assembly_commands :
    readLine "SETMAP 0, 1000, 2000, -1.0, 1.0".toList =
      some (.commands [.setmap 0 1000 2000 0xBF800000 0x3F800000]) ∧
    readLine "SETMAP 0, 1000, 2000".toList = some (.commands [.setmap 0 1000 2000 0xBF800000 0x3F800000]) ∧
    readLine "DISABLE 0x07".toList = some (.commands [.disable 7]) ∧
    readLine "LASTWIDTH 0 -> w0".toList = some (.commands [.lastwidth 0]) ∧
    readLine "CAPTURE @ 0xFFFFFFCD".toList = some (.capture 0xFFFFFFCD) ∧
    readLine "ENABLE 256".toList = none := by decide +kernel

theorem test_assembly_list :
    readLine ("ENABLE ".toList ++ [Char.ofNat 123] ++ "1, 2".toList ++ [Char.ofNat 125]) =
      some (.commands [.enable 1, .enable 2]) := by decide +kernel

theorem test_assembly_floats :
    readFloat "0.1".toList = some 0x3DCCCCCD ∧ readFloat "3e38".toList = some 0x7F61B1E6 ∧
    readFloat "-0.0".toList = some 0x80000000 ∧ readFloat "100.0".toList = some 0x42C80000 := by decide +kernel

/-! ### Witnesses: values that meet the hypotheses of the statements -/

/-- A transaction of each length is well formed, at the greatest channel index too. -/
theorem witness_DecodeOfEncodeIsTheCommand :
    Instr.init.wellFormed = true ∧ (Instr.getchannel 0).wellFormed = true ∧
      (Instr.setmap 255 0 0xFFFFFFFF 0x7FC00000 0).wellFormed = true := by decide

theorem witness_EncodeOfDecodeIsTheWords :
    decode [0x020000FF#32, 7#32] = .command (.enable 255) [7#32] := by decide

theorem witness_OpcodeTableDecidesTheCommand :
    [1#32, 2#32, 3#32, 4#32].length = operandCount 0x05000003#32 ∧ ([] : List Word).length = operandCount 0x04000000#32 ∧
      ∃ row ∈ opcodeTable, row.covers 0x05000003#32 = true ∧ row.mnemonic = "SETMAP" := by decide

/-- Both clauses at their boundary: three operand words and four for opcode `0x05`, none for another. -/
theorem witness_FramingFollowsTheOpcode :
    [1#32, 2#32, 3#32].length < (if (0x05000000#32).toNat / 2 ^ 24 = 0x05 then 4 else 0) ∧
      (if (0x05FFFF00#32).toNat / 2 ^ 24 = 0x05 then 4 else 0) ≤ [1#32, 2#32, 3#32, 4#32].length ∧
      (if (0x04000000#32).toNat / 2 ^ 24 = 0x05 then 4 else 0) ≤ ([] : List Word).length := by decide

/-- An illegal word of each kind, with the operand words its opcode field asks for; the words stand at the port. -/
theorem witness_IllegalWordIsASilentNoOp :
    illegalWord 0x00FFFFFF#32 = true ∧ illegalWord 0x07000000#32 = true ∧ illegalWord 0xFF000000#32 = true ∧
      illegalWord 0x02000100#32 = true ∧ illegalWord 0x01000001#32 = true ∧ illegalWord 0x05800000#32 = true ∧
      [1#32, 2#32, 3#32, 4#32].length = (if (0x05800000#32).toNat / 2 ^ 24 = 0x05 then 4 else 0) ∧
      ({ start with hostIn := [0x05800000#32, 1#32, 2#32, 3#32, 4#32], schedule := [.host] } : State).hostIn =
        0x05800000#32 :: [1#32, 2#32, 3#32, 4#32] ++ [] ∧
      illegalWord 0x06000000#32 = false ∧ illegalWord 0x00010000#32 = true := by decide

/-- A decodable transaction at the port, once with the host's turn next and once with no turn and no CAPTURE step. -/
theorem witness_StepRunsTheDecodedCommand :
    decode ({ start with hostIn := [0x04000000#32], schedule := [.host] } : State).hostIn =
      .command (.lastwidth 0) [] ∧
      ({ start with hostIn := [0x04000000#32] } : State).schedule = [] ∧
      ({ start with hostIn := [0x04000000#32] } : State).captureEnabled = false := by decide

theorem witness_EitherReadyAgentMayComeNext :
    ({ start with hostIn := [0x01000000#32], pending := true } : State).captureEnabled = true ∧
      ({ start with hostIn := [0x01000000#32], pending := true } : State).hostReady = true := by decide

/-- A quiescent state, with a line that is not armed, and one with part of a SETMAP at the port. -/
theorem witness_QuiescentStateStays :
    start.quiescent = true ∧ start.schedule = [] ∧
      ({ start with schedule := [.level 7 .high, .timer 5, .host, .capture] } : State).quiescent = true ∧
      start.slots[7]? = some ⟨.reset, .reset, false, .output, .low⟩ ∧
      decode ({ start with hostIn := [0x05000000#32] } : State).hostIn = .waiting ∧
      ({ start with hostIn := [0x05000000#32] } : State).hostIn ≠ [] ∧
      ({ start with hostIn := [0x05000000#32] } : State).captureEnabled = false := by decide

/-- An INIT that answers, and a command after it that answers. -/
theorem witness_InitArmsNotification :
    ∃ t u, exec .init (State.resetWith params8) = .next t ∧ exec (.disable 0) t = .next u :=
  ⟨_, _, rfl, rfl⟩

/-- The greatest index of the field, the least invalid one, the greatest valid one with Low recorded and High sampled,
and a level that differs. -/
theorem witness_EnableJoinsCapture :
    255 < 256 ∧ start.N ≤ 8 ∧ Level.low ≠ .high ∧
      (withChannel 7 ⟨false, .low, 1, 2⟩ .high start).slots[7]? =
        some ⟨⟨false, .low, 1, 2⟩, .reset, false, .output, .high⟩ := by decide

theorem witness_DisableFreezesTheChannel :
    start.N ≤ 8 ∧ (withChannel 7 ⟨true, .high, 1, 2⟩ .high start).slots[7]? =
      some ⟨⟨true, .high, 1, 2⟩, .reset, true, .input, .high⟩ := by decide

theorem witness_DisabledLineDrivesItsLevel : 7 < start.N := by decide

/-- The greatest valid index in each reset mode, and a step that takes a command of another channel. -/
theorem witness_UntouchedLineKeepsItsDrive :
    7 < params8.N ∧ params8.lineResetMode 7 = .output ∧
      ({ params8 with lineResetMode := fun _ => .input } : Params).lineResetMode 7 = .input ∧
      let s : State := { start with hostIn := [0x02000003#32], schedule := [.host] }
      ∃ t, step s = .next t ∧ decode s.hostIn = .command (.enable 3) [] ∧ t.hostIn = [] :=
  ⟨by decide, rfl, rfl, _, rfl, by decide, rfl⟩

theorem witness_LastwidthAnswersTheCommittedWidth : (∃ sl, start.slots[7]? = some sl) ∧ start.N ≤ 8 :=
  ⟨⟨_, rfl⟩, by decide⟩

/-- An enabled channel for each row of the table, and a disabled one. -/
theorem witness_CaptureFollowsTheEdgeTable :
    (withChannel 0 ⟨true, .low, 7, 9⟩ .high start).slots[0]? =
      some ⟨⟨true, .low, 7, 9⟩, .reset, true, .input, .high⟩ ∧
    (withChannel 0 ⟨true, .high, 7, 9⟩ .high start).slots[0]? =
      some ⟨⟨true, .high, 7, 9⟩, .reset, true, .input, .high⟩ ∧
    (withChannel 0 ⟨true, .high, 7, 9⟩ .low start).slots[0]? =
      some ⟨⟨true, .high, 7, 9⟩, .reset, true, .input, .low⟩ ∧
    (withChannel 0 ⟨true, .low, 7, 9⟩ .low start).slots[0]? =
      some ⟨⟨true, .low, 7, 9⟩, .reset, true, .input, .low⟩ ∧
    (withChannel 7 ⟨false, .low, 7, 9⟩ .high start).slots[7]? =
      some ⟨⟨false, .low, 7, 9⟩, .reset, false, .output, .high⟩ := by decide

theorem witness_CaptureOrderIsNotObservable : List.Perm [7, 0, 2, 1, 3, 6, 5, 4] (List.range start.N) := by decide

theorem witness_CaptureLeavesASteadyChannel :
    (withChannel 7 ⟨true, .high, 5, 6⟩ .high start).slots[7]? =
      some ⟨⟨true, .high, 5, 6⟩, .reset, true, .input, .high⟩ := by decide

/-- Every command but INIT names a channel; the least invalid one. -/
theorem witness_InvalidIndexAnswersTheSentinel :
    (Instr.enable 8).channel = some 8 ∧ (Instr.disable 8).channel = some 8 ∧ (Instr.lastwidth 8).channel = some 8 ∧
      (Instr.setmap 8 0 1 0 1).channel = some 8 ∧ (Instr.getchannel 8).channel = some 8 ∧ start.N ≤ 8 := by decide

/-- A GETCHANNEL that draws nothing. -/
theorem witness_CommandsAreIdempotent : ∃ t, exec (.getchannel 8) start = .next t ∧ t.draws = start.draws :=
  ⟨_, rfl, rfl⟩

/-- A change of an armed line and one of a line that is not armed. -/
theorem witness_LevelChangeNotifies :
    (withChannel 7 ⟨true, .low, 0, 0⟩ .low { start with schedule := [.level 7 .high] }).slots[7]? =
      some ⟨⟨true, .low, 0, 0⟩, .reset, true, .input, .low⟩ ∧
    start.slots[0]? = some ⟨.reset, .reset, false, .output, .low⟩ ∧ Level.high ≠ .low ∧
    (withChannel 7 ⟨true, .low, 0, 0⟩ .low { start with schedule := [.level 7 .high] }).schedule =
      .level 7 .high :: [] := by decide

/-- The engine's turn with and without an enabled CAPTURE step, and a step that clears `pending`. -/
theorem witness_OnlyAnEnabledCaptureClearsPending :
    (let s : State := { start with pending := true, schedule := [.capture] }
     s.schedule = .capture :: [] ∧ s.pending = true ∧ s.notifyArmed = true ∧
       ∃ t, step s = .next t ∧ t.pending = false) ∧
    let s : State := { start with schedule := [.capture] }
    s.schedule = .capture :: [] ∧ ¬ (s.pending = true ∧ s.notifyArmed = true) :=
  ⟨⟨rfl, rfl, rfl, _, rfl, rfl⟩, rfl, by decide⟩

theorem witness_EnabledCaptureIsTaken :
    ({ start with pending := true, hostIn := [0x01000000#32], schedule := [.host, .timer 5] } : State).captureEnabled =
      true := by decide

/-- A step before INIT, with `pending` set. -/
theorem witness_NoCaptureBeforeInit :
    let s : State := { State.resetWith params8 with pending := true, schedule := [.capture] }
    s.pending = true ∧ ∃ t, step s = .next t ∧ t.notifyArmed = false :=
  ⟨rfl, _, rfl, rfl⟩

/-- A step that keeps `notifyArmed` set, and one that sets it. -/
theorem witness_NotifyArmedIsSetByInitOnly :
    (∃ t, step { start with schedule := [.timer 5] } = .next t ∧ start.notifyArmed = true) ∧
    let s : State := { State.resetWith params8 with hostIn := [0x01000000#32], schedule := [.host] }
    ∃ t, step s = .next t ∧ s.notifyArmed = false ∧ t.notifyArmed = true :=
  ⟨⟨_, rfl, rfl⟩, _, rfl, rfl, rfl⟩

theorem witness_ResetLeavesTheStatedValues : 0 < params8.N ∧ 7 < params8.N := by decide

/-- One channel, enabled and mapped. -/
def oneChannel : State :=
  { slots := [⟨⟨true, .low, 0, 0⟩, ⟨0, 1, 0, 0x3F800000, true⟩, true, .input, .low⟩], notifyArmed := false,
    pending := false, timer := 0, hostIn := [0x01000000#32], response := none, schedule := [.host], draws := 0 }

/-- A state that meets the invariant with an enabled and mapped channel, and its step. -/
theorem witness_EveryStepKeepsTheInvariant :
    oneChannel.Inv { params8 with lastChannel := 0 } ∧ ∃ t, step oneChannel = .next t := by
  refine ⟨⟨rfl, ?_, ?_⟩, _, rfl⟩
  · intro i sl h
    match i, h with
    | 0, h =>
      cases h
      exact ⟨rfl, fun _ => rfl, fun h => (by cases h), fun _ => (by decide +kernel), fun h => (by cases h)⟩
  · intro _ i sl h
    match i, h with
    | 0, h => cases h; exact ⟨rfl, rfl, rfl⟩

/-- A step that changes the line of a disabled channel. -/
theorem witness_DisabledRecordIsFrozen :
    let s : State := { withChannel 0 ⟨false, .high, 100, 250⟩ .high start with schedule := [.level 0 .low] }
    (∃ t, step s = .next t) ∧ s.slots[0]? = some ⟨⟨false, .high, 100, 250⟩, .reset, false, .output, .high⟩ :=
  ⟨⟨_, rfl⟩, by decide⟩

/-- The line of a disabled channel falls, a CAPTURE step runs, and the channel stays disabled. -/
theorem witness_DisabledWidthStaysTheSame :
    let s : State := { withChannel 0 ⟨false, .high, 100, 250⟩ .high start with
      pending := true, schedule := [.level 0 .low, .capture] }
    ∃ t, stepsThrough (fun x => x.enabledOf 0 = some false) 2 s t ∧ t.pending = false :=
  ⟨_, ⟨rfl, _, rfl, rfl, _, rfl, rfl, rfl⟩, rfl⟩

/-- A command that answers, and two states that differ in a mapping record only. -/
theorem witness_FieldsHaveTheirOwners :
    (∃ t, exec (.enable 0) start = .next t) ∧
      (withMapping 0 defaultMapping start).blotMappings = start.blotMappings ∧ withMapping 0 defaultMapping start ≠ start :=
  ⟨⟨_, rfl⟩, by decide, by decide⟩

/-- Two states that differ in `pending`, the timer, a level and a rising timestamp, and a command that answers in
both. -/
theorem witness_CommandsDoNotReadCaptureInputs :
    let s := withChannel 0 ⟨true, .high, 100, 250⟩ .high start
    let t : State := { withChannel 0 ⟨true, .low, 7, 250⟩ .low start with pending := true, timer := 9 }
    s.blotUnread = t.blotUnread ∧ s ≠ t ∧ (∃ s', exec (.lastwidth 0) s = .next s') ∧
      ∃ t', exec (.lastwidth 0) t = .next t' :=
  ⟨by decide, by decide, ⟨_, rfl⟩, _, rfl⟩

/-- A rise at `0xFFFFFFCD`, a fall at 49 (S4). -/
theorem witness_WidthIsTheDifferenceOfTwoSamples :
    let s : State := { withChannel 0 ⟨true, .low, 0, 0⟩ .high start with
      pending := true, timer := 0xFFFFFFCD, schedule := [.capture, .level 0 .low, .timer 49, .capture] }
    ∃ u v w, s.lastLevelOf 0 = some .low ∧ step s = .next u ∧ u.lastLevelOf 0 = some .high ∧
      stepsThrough (fun x => x.lastLevelOf 0 = some .high) 2 u v ∧ step v = .next w ∧ w.lastLevelOf 0 = some .low ∧
      w.widthOf 0 = some 100 :=
  ⟨_, _, _, rfl, rfl, rfl, ⟨rfl, _, rfl, rfl, _, rfl, rfl, rfl⟩, rfl, rfl, by decide⟩

/-- A list of two channels, one of them invalid, its words at the port and its turns scheduled. -/
theorem witness_ListCommandsActOnEachChannel :
    let s : State := { start with
      hostIn := (enableList [1, 255]).flatMap encode ++ [7#32], schedule := List.replicate 2 .host ++ [.capture] }
    (∀ c ∈ [1, 255], c < 256) ∧ s.schedule = List.replicate [1, 255].length .host ++ [.capture] ∧
      s.hostIn = [0x02000001#32, 0x020000FF#32, 7#32] ∧
      (disableList [1, 255]).flatMap encode = [0x03000001#32, 0x030000FF#32] := by decide +kernel

/-- A mapping to store, and each of the three grounds to reject. -/
theorem witness_SetmapStoresOrRejects :
    (∃ sl, start.slots[7]? = some sl) ∧ (1000#32 ≠ 2000#32) ∧
      f32eq (asf32 0xBF800000) (asf32 0x3F800000) = false ∧ start.N ≤ 8 ∧
      f32eq (asf32 0x00000000) (asf32 0x80000000) = true :=
  ⟨⟨_, rfl⟩, by decide, by decide +kernel, by decide, by decide +kernel⟩

/-- A channel never mapped, a mapped one whose answer is a number, and one whose answer is a NaN. -/
theorem witness_GetchannelAnswersTheMappedWidth :
    start.slots[7]? = some ⟨.reset, .reset, false, .output, .low⟩ ∧ start.N ≤ 8 ∧
    (withMapping 0 defaultMapping start).slots[0]? = some ⟨.reset, defaultMapping, false, .output, .low⟩ ∧
    bits32 (mapEval 0 defaultMapping) = some 0xC0400000 ∧
    (withMapping 0 ⟨1000, 2000, 0x7FC00000, 0x3F800000, true⟩ start).slots[0]? =
      some ⟨.reset, ⟨1000, 2000, 0x7FC00000, 0x3F800000, true⟩, false, .output, .low⟩ ∧
    mapEval 0 ⟨1000, 2000, 0x7FC00000, 0x3F800000, true⟩ = .nan := by decide +kernel

theorem witness_MappingAppliesToTheLastWidth :
    start.slots[0]? = some ⟨.reset, .reset, false, .output, .low⟩ ∧
    bits32 (mapEval 0 ⟨1000, 2000, 0xBF800000, 0x3F800000, true⟩) = some 0xC0400000 ∧
    1000#32 ≠ 2000#32 ∧ f32eq (asf32 0xBF800000) (asf32 0x3F800000) = false ∧
    (withMapping 0 defaultMapping start).blotMappings = start.blotMappings := by decide +kernel

/-- A rounding to a finite value, at the greatest one that is, and an overflow. -/
theorem witness_RoundingIsToNearestEven :
    0 < 3 ∧ roundF32 false (2 ^ 149) 3 = .fin false (11184811 * 2 ^ 124) ∧
      roundF32 true (2 ^ 149 * (2 ^ 25 - 1)) 1 = .fin true (2 ^ 149 * 2 ^ 25) ∧
      roundF32 true ((2 ^ 25 - 1) * (2 ^ 126 * 2 ^ 126)) 1 = .inf true := by decide +kernel

/-- A sum and a difference that are not zero, ones that are, and a nonzero divisor. -/
theorem witness_OperationsRoundTheExactResult :
    signedUnits false 1 + signedUnits true 3 ≠ 0 ∧ signedUnits false 3 + signedUnits true 3 = 0 ∧
      signedUnits false 1 - signedUnits true 3 ≠ 0 ∧ signedUnits true 0 - signedUnits false 0 = 0 ∧ 3 ≠ 0 ∧
      (-5 : Int) ≠ 0 := by decide

/-- The boundary of exact conversion, and the greatest difference of two words. -/
theorem witness_IntegerConversionKeepsSignAndSmallValues :
    (-16777216 : Int).natAbs ≤ 2 ^ 24 ∧ 2 ^ 24 < (16777217 : Int).natAbs ∧ (-4294967295 : Int) ≠ 0 ∧
      (-4294967295 : Int).natAbs < 2 ^ 32 := by decide

theorem witness_PatternsEncodeTheirValues :
    isNaNPattern 0x7F800000 = false ∧ isNaNPattern 0x00000001 = false ∧ isNaNPattern 0x7F800001 = true := by decide

/-- A finite range with a nonzero and with a zero `outMin`, an infinite range, and a range that is no number. -/
theorem witness_MappingAtTheBounds :
    1000#32 ≠ 2000#32 ∧
    (mapR defaultMapping = .fin false (2 ^ 149 * 2) ∧ asf32 defaultMapping.outMin = .fin true (2 ^ 149 * 1)) ∧
    (mapR ⟨1000, 2000, 0x80000000, 0x3F800000, true⟩ = .fin false (2 ^ 149 * 1) ∧ asf32 0x80000000 = .fin true 0) ∧
    mapR ⟨1000, 2000, 0, 0x7F800000, true⟩ = .inf false ∧
    mapR ⟨1000, 2000, 0x7FC00000, 0x3F800000, true⟩ = .nan := by decide +kernel

/-- Distinct raw bounds, finite output bounds of distinct and of equal values, and finite values on the way. -/
theorem witness_MappingFollowsTheFormula :
    defaultMapping.rawMin ≠ defaultMapping.rawMax ∧ asf32 defaultMapping.outMax = .fin false (2 ^ 149 * 1) ∧
      asf32 defaultMapping.outMin = .fin true (2 ^ 149 * 1) ∧
      signedUnits false (2 ^ 149 * 1) - signedUnits true (2 ^ 149 * 1) ≠ 0 ∧
      signedUnits true 0 - signedUnits false 0 = 0 ∧
      f32 (-500) = .fin true (2 ^ 149 * 500) ∧ mapR defaultMapping = .fin false (2 ^ 149 * 2) ∧
      f32mul (f32 (-500)) (mapR defaultMapping) = .fin true (2 ^ 149 * 1000) ∧
      f32div (f32mul (f32 (-500)) (mapR defaultMapping)) (mapD defaultMapping) = .fin true (2 ^ 149 * 1) ∧
      signedUnits true (2 ^ 149 * 1) + signedUnits true (2 ^ 149 * 1) ≠ 0 ∧
      signedUnits false (2 ^ 149 * 1) + signedUnits true (2 ^ 149 * 1) = 0 := by decide +kernel

/-- A NaN bound at each end, an infinite range away from `rawMin`, and an infinite `outMin` with a finite `outMax`. -/
theorem witness_MappingOfSpecialValues :
    2000#32 ≠ 1000#32 ∧ asf32 0x7FC00000 = .nan ∧ 1500#32 ≠ 2000#32 ∧
      mapR ⟨2000, 1000, 0, 0x7F800000, true⟩ = .inf false ∧ asf32 0xFF800000 = .inf true ∧
      asf32 0x3F800000 = .fin false (2 ^ 149 * 1) := by decide +kernel

end Sys2Proof.Tests
end

section
/-! PROOFS. Binary32 patterns and the values they encode: the round trip, the NaN patterns, equality
(spec/00_scope.md R16, spec/20_memory.md R47). -/

namespace Sys2Proof.Machine

theorem isNaNPattern_iff (w : Word) : isNaNPattern w = true ↔ exponentField w = 255 ∧ fractionField w ≠ 0 := by
  simp [isNaNPattern]

/-- The NaN patterns are those that encode a NaN. -/
theorem asf32_eq_nan_iff (w : Word) : asf32 w = .nan ↔ isNaNPattern w = true := by
  rw [isNaNPattern_iff, asf32]
  by_cases he : exponentField w = 255
  · by_cases hf : fractionField w = 0 <;> simp [he, hf]
  · by_cases h0 : exponentField w = 0 <;> simp [he, h0]

/-- The pattern of an infinity is its sign, the exponent all ones and no fraction. -/
theorem toNat_of_asf32_inf {w : Word} {neg : Bool} (h : asf32 w = .inf neg) :
    w.toNat = signBits neg + 255 * 2 ^ 23 := by
  unfold asf32 at h
  split at h
  · next he =>
    split at h
    · next hf =>
      cases h
      rw [toNat_eq_fields w, he, hf, Nat.add_zero, Nat.mul_comm]
    · cases h
  · split at h <;> cases h

/-- A pattern that is no NaN is the encoding of its value. -/
theorem bits32_asf32 {w : Word} (h : isNaNPattern w = false) : bits32 (asf32 w) = some w := by
  cases hv : asf32 w with
  | nan => exact absurd ((asf32_eq_nan_iff w).1 hv) (by simp [h])
  | inf neg => exact congrArg some (by rw [← toNat_of_asf32_inf hv, BitVec.ofNat_toNat, BitVec.setWidth_eq])
  | fin neg m => exact congrArg some (isRepresentable_of_asf32 hv).2.symm

/-- Two patterns that are no NaN encode the same value only when they are the same word. -/
theorem asf32_inj {v w : Word} (hv : isNaNPattern v = false) (hw : isNaNPattern w = false) :
    asf32 v = asf32 w ↔ v = w := by
  refine ⟨fun h => ?_, congrArg asf32⟩
  have := bits32_asf32 hv
  rwa [h, bits32_asf32 hw, Option.some.injEq, eq_comm] at this

theorem signBits_cases (neg : Bool) : signBits neg = 0 ∨ signBits neg = 2 ^ 31 := by
  cases neg
  · exact .inl rfl
  · exact .inr rfl

theorem toNat_nanPattern (neg : Bool) (k : Fin 8388607) :
    (nanPattern neg k).toNat = signBits neg + 255 * 2 ^ 23 + (k.val + 1) := by
  have hk := k.isLt
  rw [nanPattern, BitVec.toNat_ofNat, Nat.mod_eq_of_lt]
  have hs := signBits_cases neg
  omega

theorem isNaNPattern_nanPattern (neg : Bool) (k : Fin 8388607) : isNaNPattern (nanPattern neg k) = true := by
  have hk := k.isLt
  rw [isNaNPattern_iff, exponentField_eq, fractionField_eq, toNat_nanPattern]
  have hs := signBits_cases neg
  omega

/-- The NaN patterns are exactly those the draw `nanResult` ranges over. -/
theorem isNaNPattern_iff_nanPattern (w : Word) :
    isNaNPattern w = true ↔ ∃ (neg : Bool) (k : Fin 8388607), w = nanPattern neg k := by
  constructor
  · intro h
    obtain ⟨he, hf⟩ := (isNaNPattern_iff w).1 h
    have hlt : fractionField w < 2 ^ 23 := by rw [fractionField_eq]; omega
    refine ⟨w.msb, ⟨fractionField w - 1, by omega⟩, BitVec.eq_of_toNat_eq ?_⟩
    rw [toNat_nanPattern, toNat_eq_fields w, he]
    simp only
    omega
  · rintro ⟨neg, k, rfl⟩
    exact isNaNPattern_nanPattern neg k

/-- The patterns of the two zeros are those with no bit but the sign bit. -/
theorem asf32_zero_iff (w : Word) : (∃ neg, asf32 w = .fin neg 0) ↔ w &&& 0x7FFFFFFF#32 = 0 := by
  constructor
  · rintro ⟨neg, h⟩
    rw [(isRepresentable_of_asf32 h).2]
    cases neg <;> decide
  · intro h
    have hmod : w.toNat % 2 ^ 31 = 0 := by
      have := congrArg BitVec.toNat h
      rwa [BitVec.toNat_and, show (0x7FFFFFFF#32).toNat = 2 ^ 31 - 1 from rfl, Nat.and_two_pow_sub_one_eq_mod] at this
    have he : exponentField w = 0 := by rw [exponentField_eq]; omega
    have hf : fractionField w = 0 := by rw [fractionField_eq]; omega
    exact ⟨w.msb, by simp [asf32, he, hf]⟩

/-- `f32eq` is equality of the values that are no NaN, but for the two zeros. -/
theorem f32eq_iff (u v : F32) : f32eq u v = true ↔
    u ≠ .nan ∧ v ≠ .nan ∧ (u = v ∨ (∃ neg, u = .fin neg 0) ∧ ∃ neg, v = .fin neg 0) := by
  cases u with
  | nan => simp [f32eq]
  | inf a => cases v <;> simp [f32eq]
  | fin a x =>
    cases v with
    | nan => simp [f32eq]
    | inf b => simp [f32eq]
    | fin b y =>
      by_cases hx : x = 0
      · have hzero : (a = b ∧ 0 = y) ∨ y = 0 ↔ y = 0 := or_iff_right_of_imp fun h => h.2.symm
        simp [f32eq, hx, hzero]
      · simp [f32eq, hx]

end Sys2Proof.Machine

open Sys2Proof.Machine

/-- Settles O42: the round trip, the NaN patterns as those of a NaN value, and as those the draw ranges over. -/
theorem patternsEncodeTheirValues : Obligations.PatternsEncodeTheirValues :=
  ⟨fun _ => bits32_asf32, fun w => (asf32_eq_nan_iff w).symm, isNaNPattern_iff_nanPattern⟩

/-- Settles O43: `f32eq` of values is equality but for the zeros, and distinct patterns have distinct values. -/
theorem equalityOfPatterns : Obligations.EqualityOfPatterns := by
  intro v w
  rw [f32eq_iff, asf32_zero_iff, asf32_zero_iff, Ne, Ne, asf32_eq_nan_iff, asf32_eq_nan_iff, Bool.not_eq_true,
    Bool.not_eq_true]
  exact and_congr_right fun hv => and_congr_right fun hw => or_congr_left (asf32_inj hv hw)

end

section
/-! PROOFS. Rounding to nearest, ties to even (spec/00_scope.md R16, spec/41_mapper.md R106, R107): among the multiples
of the unit in the last place `divNearestEven` finds the nearest, and every representable magnitude that is no such
multiple lies below the binade of the exact value, so below a nearer multiple. -/

namespace Sys2Proof.Machine

/-- The significand a rounding keeps: its result in units in the last place. -/
def roundedSignificand (num den : Nat) : Nat := divNearestEven num (den * 2 ^ ulpShift (num / den))

theorem roundUnits_eq (num den : Nat) :
    roundUnits num den = roundedSignificand num den * 2 ^ ulpShift (num / den) := rfl

/-- Distances in units and in multiples of a unit in the last place. -/
theorem distanceTo_mul (num den k ulp : Nat) : distanceTo num den (k * ulp) = distanceTo num (den * ulp) k := by
  rw [distanceTo, distanceTo, Nat.mul_comm den, Nat.mul_assoc]

/-- No whole number is nearer to the quotient than `divNearestEven`, and of two equally near ones it is the even. -/
theorem divNearestEven_nearest (num : Nat) {den : Nat} (h : 0 < den) (k : Nat) :
    distanceTo num den (divNearestEven num den) ≤ distanceTo num den k ∧
      (distanceTo num den (divNearestEven num den) = distanceTo num den k → k ≠ divNearestEven num den →
        divNearestEven num den % 2 = 0) := by
  obtain ⟨-, hle, hge, htie⟩ := divNearestEven_spec num h
  generalize divNearestEven num den = n at *
  unfold distanceTo
  rcases Nat.lt_trichotomy k n with hk | rfl | hk
  · have : (k + 1) * den ≤ n * den := Nat.mul_le_mul_right den hk
    rw [Nat.add_mul] at this
    exact ⟨by omega, fun _ _ => htie (by omega)⟩
  · exact ⟨le_rfl, fun _ hne => absurd rfl hne⟩
  · have : (n + 1) * den ≤ k * den := Nat.mul_le_mul_right den hk
    rw [Nat.add_mul] at this
    exact ⟨by omega, fun _ _ => htie (by omega)⟩

/-- A rounded quotient reaches an even number from half a unit below it on. -/
theorem le_divNearestEven_iff (num : Nat) {den even : Nat} (h : 0 < den) (he : even % 2 = 0) :
    even ≤ divNearestEven num den ↔ 2 * (even * den) ≤ 2 * num + den := by
  obtain ⟨-, hle, hge, htie⟩ := divNearestEven_spec num h
  generalize divNearestEven num den = n at *
  constructor
  · intro hn
    have := Nat.mul_le_mul_right den hn
    omega
  · intro hnum
    by_contra hn
    have hlt : (n + 1) * den ≤ even * den := Nat.mul_le_mul_right den (by omega)
    have hne : even * den ≠ (n + 1) * den := by
      intro heq
      have hsucc : even = n + 1 := Nat.eq_of_mul_eq_mul_right h heq
      rw [Nat.add_mul] at heq
      have := htie (.inr (by omega))
      omega
    rw [Nat.add_mul] at hlt hne
    omega

variable {num den : Nat}

/-- The significand kept is one of the two around the exact one. -/
theorem roundedSignificand_bounds (num : Nat) (h : 0 < den) :
    num / den / 2 ^ ulpShift (num / den) ≤ roundedSignificand num den ∧
      roundedSignificand num den ≤ num / den / 2 ^ ulpShift (num / den) + 1 := by
  have hcases := (divNearestEven_spec num (Nat.mul_pos h (Nat.two_pow_pos (ulpShift (num / den))))).1
  rw [← Nat.div_div_eq_div_mul] at hcases
  unfold roundedSignificand
  omega

theorem roundedSignificand_le (num : Nat) (h : 0 < den) : roundedSignificand num den ≤ 2 ^ 24 :=
  (roundedSignificand_bounds num h).2.trans (Nat.div_lt_of_lt_mul (by rw [Nat.mul_comm]; exact lt_of_ulpShift _))

/-- A shifted significand keeps its 24 bits. -/
theorem le_roundedSignificand (h : 0 < den) (hs : 0 < ulpShift (num / den)) : 2 ^ 23 ≤ roundedSignificand num den :=
  ((Nat.le_div_iff_mul_le (Nat.two_pow_pos _)).2 (le_of_ulpShift_pos hs)).trans (roundedSignificand_bounds num h).1

/-- The overflow threshold (R106, R107): a rounding reaches `2^128` exactly from half a unit in the last place above the
greatest finite value on. At the shift 253 of that value the tie goes to the even significand `2^24`. -/
theorem f32Overflow_le_roundUnits_iff (num : Nat) (h : 0 < den) :
    f32Overflow ≤ roundUnits num den ↔ (2 ^ 25 - 1) * 2 ^ 252 * den ≤ num := by
  rw [roundUnits_eq, f32Overflow_eq, ← Nat.le_div_iff_mul_le h]
  rcases Nat.lt_trichotomy (ulpShift (num / den)) 253 with hs | hs | hs
  · have hpow : 2 ^ ulpShift (num / den) ≤ 2 ^ 252 := Nat.pow_le_pow_right (by decide) (by omega)
    have hround := Nat.mul_le_mul (roundedSignificand_le num h) hpow
    have hexact := (lt_of_ulpShift (num / den)).trans_le (Nat.mul_le_mul_left _ hpow)
    exact iff_of_false (by omega) (by omega)
  · rw [hs, Nat.mul_le_mul_right_iff (by positivity), roundedSignificand, hs,
      le_divNearestEven_iff num (by positivity) (by decide), Nat.le_div_iff_mul_le h]
    omega
  · have hpos : 0 < ulpShift (num / den) := by omega
    have hpow : 2 ^ 254 ≤ 2 ^ ulpShift (num / den) := Nat.pow_le_pow_right (by decide) hs
    have hround := Nat.mul_le_mul (le_roundedSignificand h hpos) hpow
    have hexact := (Nat.mul_le_mul_left (2 ^ 23) hpow).trans (le_of_ulpShift_pos hpos)
    exact iff_of_true (by omega) (by omega)

/-- The pattern of a significand and its shift, the carry to `2^24` included. -/
theorem magnitudeBits_mul_pow {k j : Nat} (h : 0 < j → 2 ^ 23 ≤ k) (hk : k ≤ 2 ^ 24) :
    magnitudeBits (k * 2 ^ j) = 2 ^ 23 * j + k := by
  rcases Nat.eq_or_lt_of_le hk with rfl | hlt
  · have hcarry : 2 ^ 24 * 2 ^ j = 2 ^ 23 * 2 ^ (j + 1) := by rw [pow_succ]; ring
    rw [magnitudeBits, hcarry, ulpShift_eq (by decide) (by decide), Nat.mul_div_cancel _ (Nat.two_pow_pos _)]
    omega
  · have hshift : ulpShift (k * 2 ^ j) = j := by
      rcases Nat.eq_zero_or_pos j with rfl | hj
      · exact ulpShift_small (by simpa using hlt)
      · exact ulpShift_eq (h hj) hlt
    rw [magnitudeBits, hshift, Nat.mul_div_cancel _ (Nat.two_pow_pos _)]

/-- A representable magnitude from the exact value's binade on is a multiple of its unit in the last place. -/
theorem IsRepresentable.ulp_dvd {m s : Nat} (hm : IsRepresentable m) (h : 0 < s → 2 ^ 23 * 2 ^ s ≤ m) : 2 ^ s ∣ m := by
  rcases Nat.eq_zero_or_pos s with rfl | hs
  · exact one_dvd m
  · exact (pow_dvd_pow 2 (le_ulpShift (h hs))).trans hm.2

/-- A representable magnitude below the exact value's binade is farther from the exact value than the rounding. -/
theorem distanceTo_lt_of_below_binade {m : Nat} (h : 0 < den) (hs : 0 < ulpShift (num / den))
    (hm : m < 2 ^ 23 * 2 ^ ulpShift (num / den)) :
    distanceTo num den (roundUnits num den) < distanceTo num den m := by
  have hd : 0 < den * 2 ^ ulpShift (num / den) := Nat.mul_pos h (Nat.two_pow_pos _)
  have hnear := (divNearestEven_nearest num hd (2 ^ 23)).1
  have hbinade : 2 ^ 23 * 2 ^ ulpShift (num / den) * den ≤ num :=
    (Nat.le_div_iff_mul_le h).1 (le_of_ulpShift_pos hs)
  have hbelow := Nat.mul_lt_mul_of_pos_right hm h
  rw [← distanceTo_mul, ← distanceTo_mul] at hnear
  refine hnear.trans_lt ?_
  unfold distanceTo
  omega

/-- The rounding is nearest among the representable magnitudes, and its pattern is even where another is as near. -/
theorem roundUnits_nearest {m : Nat} (h : 0 < den) (hm : IsRepresentable m) :
    distanceTo num den (roundUnits num den) ≤ distanceTo num den m ∧
      (distanceTo num den (roundUnits num den) = distanceTo num den m → m ≠ roundUnits num den →
        magnitudeBits (roundUnits num den) % 2 = 0) := by
  by_cases hb : 0 < ulpShift (num / den) → 2 ^ 23 * 2 ^ ulpShift (num / den) ≤ m
  · obtain ⟨k, rfl⟩ := hm.ulp_dvd hb
    have hd : 0 < den * 2 ^ ulpShift (num / den) := Nat.mul_pos h (Nat.two_pow_pos _)
    obtain ⟨hnear, htie⟩ := divNearestEven_nearest num hd k
    rw [Nat.mul_comm (2 ^ _) k, roundUnits_eq, distanceTo_mul, distanceTo_mul,
      magnitudeBits_mul_pow (le_roundedSignificand h) (roundedSignificand_le num h)]
    refine ⟨hnear, fun heq hne => ?_⟩
    have : roundedSignificand num den % 2 = 0 := htie heq fun hk => hne (congrArg (· * _) hk)
    omega
  · obtain ⟨hs, hlow⟩ := Classical.not_imp.1 hb
    have hlt := distanceTo_lt_of_below_binade h hs (not_le.1 hlow)
    exact ⟨hlt.le, fun heq => absurd heq hlt.ne⟩

/-- A rounding below the overflow is representable. -/
theorem isRepresentable_roundUnits (num : Nat) (h : 0 < den) (ho : roundUnits num den < f32Overflow) :
    IsRepresentable (roundUnits num den) :=
  isRepresentable_mul_pow (roundedSignificand_le num h) ho

/-- `roundF32` rounds to nearest, ties to even. -/
theorem isNearestEven_roundF32 (neg : Bool) (num : Nat) (h : 0 < den) :
    IsNearestEven neg num den (roundF32 neg num den) := by
  have hover := f32Overflow_le_roundUnits_iff num h
  rcases roundF32_cases neg num den with ⟨hlt, hr⟩ | ⟨hge, hr⟩
  · rw [hr]
    exact ⟨rfl, not_le.1 (hover.not.1 (not_le.2 hlt)), (isF32Magnitude_iff _).2 (isRepresentable_roundUnits num h hlt),
      fun _ hother => roundUnits_nearest h ((isF32Magnitude_iff _).1 hother)⟩
  · rw [hr]
    exact ⟨rfl, hover.1 hge⟩

/-- A sum that is not zero is rounded to nearest, ties to even. -/
theorem isNearestEven_roundSum (bothNegative : Bool) {sum : Int} (h : sum ≠ 0) :
    IsNearestEven (decide (sum < 0)) sum.natAbs 1 (roundSum bothNegative sum) := by
  rw [roundSum, if_neg h]
  exact isNearestEven_roundF32 _ _ Nat.one_pos

theorem roundSum_zero (bothNegative : Bool) : roundSum bothNegative 0 = .fin bothNegative 0 := rfl

theorem f32add_fin (a b : Bool) (x y : Nat) :
    f32add (.fin a x) (.fin b y) = roundSum (a && b) (signedUnits a x + signedUnits b y) := rfl

theorem signedUnits_not (b : Bool) (y : Nat) : signedUnits (!b) y = -signedUnits b y := by
  cases b <;> simp [signedUnits]

theorem f32sub_fin (a b : Bool) (x y : Nat) :
    f32sub (.fin a x) (.fin b y) = roundSum (a && !b) (signedUnits a x - signedUnits b y) := by
  rw [f32sub, f32neg, f32add_fin, signedUnits_not, Int.sub_eq_add_neg]

theorem f32div_fin (a b : Bool) (x : Nat) {y : Nat} (hy : y ≠ 0) :
    f32div (.fin a x) (.fin b y) = roundF32 (a != b) (f32Unit * x) y := if_neg hy

end Sys2Proof.Machine

open Sys2Proof.Machine

/-- Settles O39: `roundUnits` is nearest among the representable magnitudes, and reaches the overflow exactly at
the threshold. -/
theorem roundingIsToNearestEven : Obligations.RoundingIsToNearestEven :=
  fun neg num _ => isNearestEven_roundF32 neg num

/-- Settles O40: each operation on finite operands is one rounding of its exact result. -/
theorem operationsRoundTheExactResult : Obligations.OperationsRoundTheExactResult := by
  refine ⟨fun v _ => isNearestEven_roundF32 _ _ Nat.one_pos, fun a b x y => ⟨⟨?_, ?_⟩, ⟨?_, ?_⟩, ?_, fun hy => ?_⟩⟩
  · exact isNearestEven_roundSum (a && b)
  · intro h
    rw [f32add_fin, h, roundSum_zero]
  · rw [f32sub_fin]
    exact isNearestEven_roundSum (a && !b)
  · intro h
    rw [f32sub_fin, h, roundSum_zero]
  · exact isNearestEven_roundF32 (a != b) (x * y) (Nat.two_pow_pos 149)
  · rw [f32div_fin a b x hy]
    exact isNearestEven_roundF32 (a != b) (2 ^ 149 * x) (Nat.pos_of_ne_zero hy)

end

section
/-! PROOFS. What one step can do to one slot, and from it the invariant of the reachable states, the frozen record of a
disabled channel and the drive of an untouched line (spec/10_state.md R25, R28, R30, R32, R33, R35, R43, R147). -/

namespace Sys2Proof.Machine

variable {p : Params} {s t : State} {instr : Instr} {i c : Nat} {sl sl' : Slot} {slots : List Slot} {f : Slot → Slot}

/-- Everything a host command can do to slot `i`. -/
inductive CommandWrite (instr : Instr) (i : Nat) (sl : Slot) : Slot → Prop
  | keep : CommandWrite instr i sl sl
  | enable (h : instr = .enable i) : CommandWrite instr i sl sl.enable
  | disable (h : instr = .disable i) : CommandWrite instr i sl sl.disable
  | setmap (lo hi a b : Word) (h : degenerateMapping lo hi a b = false) :
    CommandWrite instr i sl { sl with map := ⟨lo, hi, a, b, true⟩ }

/-- Everything a step from `s` to `t` can do to slot `i`. -/
inductive SlotStep (s t : State) (i : Nat) (sl : Slot) : Slot → Prop
  | keep : SlotStep s t i sl sl
  | command {instr : Instr} {sl' : Slot} (hd : decode s.hostIn = .command instr t.hostIn)
    (hw : CommandWrite instr i sl sl') : SlotStep s t i sl sl'
  | capture (hc : s.captureEnabled = true) : SlotStep s t i sl (sl.capture t.timer)
  | level (v : Level) : SlotStep s t i sl { sl with level := v }

theorem optionRel_refl {α : Type} {R : α → α → Prop} (h : ∀ a, R a a) : ∀ x : Option α, Option.Rel R x x
  | none => .none
  | some a => .some (h a)

theorem optionRel_mono {α : Type} {R Q : α → α → Prop} {x y : Option α} (h : ∀ a b, R a b → Q a b)
    (hr : Option.Rel R x y) : Option.Rel Q x y := by
  cases hr with
  | some hab => exact .some (h _ _ hab)
  | none => exact .none

theorem optionRel_some_left {α : Type} {R : α → α → Prop} {a : α} {y : Option α} (h : Option.Rel R (some a) y) :
    ∃ b, y = some b ∧ R a b := by
  cases h with
  | some hab => exact ⟨_, rfl, hab⟩

theorem optionRel_some_right {α : Type} {R : α → α → Prop} {b : α} {x : Option α} (h : Option.Rel R x (some b)) :
    ∃ a, x = some a ∧ R a b := by
  cases h with
  | some hab => exact ⟨_, rfl, hab⟩

/-- A write to slot `c` relates every slot to what it was, when the relation admits the write at `c`. -/
theorem optionRel_modify {R : Slot → Slot → Prop} (hkeep : ∀ sl, R sl sl) (hwrite : c = i → ∀ sl, R sl (f sl)) :
    Option.Rel R slots[i]? (slots.modify c f)[i]? := by
  by_cases hc : c = i
  · cases hs : slots[i]? with
    | none => simp [hc, hs]
    | some sl =>
      rw [hc, getElem?_modify_same hs]
      exact .some (hwrite hc sl)
  · rw [getElem?_modify_ne (Ne.symm hc)]
    exact optionRel_refl hkeep _

theorem exec_slot (h : exec instr s = .next t) (i : Nat) :
    Option.Rel (CommandWrite instr i) s.slots[i]? t.slots[i]? := by
  obtain ⟨_, rfl⟩ | ⟨c, hi, rfl⟩ | ⟨c, hi, rfl⟩ | ⟨c, lo, hi, a, b, _, _, hdeg, rfl⟩ | ⟨_, _, rfl⟩ := exec_cases h
  · exact optionRel_refl (fun _ => .keep) _
  · exact optionRel_modify (fun _ => .keep) fun hc _ => .enable (hc ▸ hi)
  · exact optionRel_modify (fun _ => .keep) fun hc _ => .disable (hc ▸ hi)
  · exact optionRel_modify (fun _ => .keep) fun _ _ => .setmap lo hi a b hdeg
  · exact optionRel_refl (fun _ => .keep) _

theorem step_slot (h : step s = .next t) (i : Nat) : Option.Rel (SlotStep s t i) s.slots[i]? t.slots[i]? := by
  obtain ⟨turns, d, now, rfl | ⟨instr, rest, hd, he⟩ | ⟨_, rest, _, rfl⟩ | ⟨hc, rfl⟩ | ⟨j, v, rfl⟩⟩ := step_cases h
  · exact optionRel_refl (fun _ => .keep) _
  · obtain ⟨_, _, _, rfl, _, _⟩ := exec_frame he
    exact optionRel_mono (fun _ _ hw => .command hd hw) (exec_slot he i)
  · exact optionRel_refl (fun _ => .keep) _
  · rw [capture_slots, List.getElem?_map]
    cases s.slots[i]? with
    | none => exact .none
    | some sl => exact .some (.capture hc)
  · obtain hk | ⟨_, _, _, hk⟩ := setLevel_cases { s with schedule := turns, draws := d, timer := now } j v
    · rw [hk]
      exact optionRel_refl (fun _ => .keep) _
    · simp only [hk]
      exact optionRel_modify (fun _ => .keep) fun _ _ => .level v

/-- The slot a step makes of a given one. -/
theorem step_slot_from (h : step s = .next t) (hs : s.slots[i]? = some sl) :
    ∃ sl', t.slots[i]? = some sl' ∧ SlotStep s t i sl sl' :=
  optionRel_some_left (hs ▸ step_slot h i)

/-- The slot a given one was before the step. -/
theorem step_slot_to (h : step s = .next t) (ht : t.slots[i]? = some sl') :
    ∃ sl, s.slots[i]? = some sl ∧ SlotStep s t i sl sl' :=
  optionRel_some_right (ht ▸ step_slot h i)

/-- Channels are neither created nor destroyed (R20). -/
theorem step_N (h : step s = .next t) : t.N = s.N := by
  obtain ⟨turns, d, now, rfl | ⟨instr, rest, _, he⟩ | ⟨_, rest, _, rfl⟩ | ⟨_, rfl⟩ | ⟨j, v, rfl⟩⟩ := step_cases h
  · rfl
  · obtain ⟨_, _, _, _, _, hN⟩ := exec_frame he
    exact hN
  · rfl
  · exact List.length_map _
  · obtain hk | ⟨_, _, _, hk⟩ := setLevel_cases { s with schedule := turns, draws := d, timer := now } j v
    · rw [hk]
      rfl
    · simp [hk, State.N]

/-- A step keeps the arm bit, or takes an INIT off the port and sets it (R33). -/
theorem step_notifyArmed (h : step s = .next t) :
    t.notifyArmed = s.notifyArmed ∨ (decode s.hostIn = .command .init t.hostIn ∧ t.notifyArmed = true) := by
  obtain ⟨turns, d, now, rfl | ⟨instr, rest, hd, he⟩ | ⟨_, rest, _, rfl⟩ | ⟨_, rfl⟩ | ⟨j, v, rfl⟩⟩ := step_cases h
  · exact .inl rfl
  · obtain ⟨_, _, _, rfl, _, _⟩ := exec_frame he
    obtain hk | ⟨rfl, hset⟩ := exec_notifyArmed he
    · exact .inl hk
    · exact .inr ⟨hd, hset⟩
  · exact .inl rfl
  · exact .inl rfl
  · exact .inl (setLevel_notifyArmed _ _ _)

theorem slotCapture_hostFields (now : Word) (sl : Slot) : (sl.capture now).hostFields = sl.hostFields := by
  obtain ⟨henabled, hmap, hmask, hmode, _⟩ := slotCapture_keeps now sl
  simp only [Slot.hostFields, henabled, hmap, hmask, hmode]

theorem CommandWrite.captureFields_eq (hw : CommandWrite instr i sl sl') : sl'.captureFields = sl.captureFields := by
  cases hw <;> rfl

/-- Captured values move only by the visit of an enabled CAPTURE step (R26). -/
theorem SlotStep.captureFields_eq_or (h : SlotStep s t i sl sl') :
    sl'.captureFields = sl.captureFields ∨ (s.captureEnabled = true ∧ sl' = sl.capture t.timer) := by
  cases h with
  | keep => exact .inl rfl
  | command _ hw => exact .inl hw.captureFields_eq
  | capture hc => exact .inr ⟨hc, rfl⟩
  | level v => exact .inl rfl

/-- The invariant of a slot speaks of the host's fields only. -/
theorem Slot.Inv.of_hostFields_eq (hi : sl.Inv p i) (h : sl'.hostFields = sl.hostFields) : sl'.Inv p i := by
  simp only [Slot.hostFields, Prod.mk.injEq] at h
  obtain ⟨henabled, hmap, hmask, hmode⟩ := h
  obtain ⟨hme, hin, hout, hacc, hreset⟩ := hi
  constructor <;> simpa only [henabled, hmap, hmask, hmode]

theorem CommandWrite.inv (hw : CommandWrite instr i sl sl') (hi : sl.Inv p i) : sl'.Inv p i := by
  obtain ⟨hme, hin, hout, hacc, hreset⟩ := hi
  cases hw with
  | keep => exact ⟨hme, hin, hout, hacc, hreset⟩
  | enable _ => exact ⟨rfl, fun _ => rfl, nofun, hacc, hreset⟩
  | disable _ => exact ⟨rfl, nofun, fun _ => .inl rfl, hacc, hreset⟩
  | setmap lo hi a b hdeg => exact ⟨hme, hin, hout, fun _ => hdeg, nofun⟩

theorem SlotStep.inv (h : SlotStep s t i sl sl') (hi : sl.Inv p i) : sl'.Inv p i := by
  cases h with
  | keep => exact hi
  | command _ hw => exact hw.inv hi
  | capture _ => exact hi.of_hostFields_eq (slotCapture_hostFields _ _)
  | level v => exact hi.of_hostFields_eq rfl

/-- Before INIT a step changes no captured value (R147). -/
theorem SlotStep.captureFields_eq_of_unarmed (h : SlotStep s t i sl sl') (hs : s.notifyArmed = false) :
    sl'.captureFields = sl.captureFields := by
  obtain hk | ⟨hc, _⟩ := h.captureFields_eq_or
  · exact hk
  · simp [State.captureEnabled, hs] at hc

theorem step_inv (hi : s.Inv p) (h : step s = .next t) : t.Inv p where
  slot_count := (step_N h).trans hi.slot_count
  slot_inv i sl' ht := by
    obtain ⟨sl, hs, hstep⟩ := step_slot_to h ht
    exact hstep.inv (hi.slot_inv i sl hs)
  nothing_captured hunarmed i sl' ht := by
    obtain ⟨sl, hs, hstep⟩ := step_slot_to h ht
    have hs_unarmed : s.notifyArmed = false := by
      obtain hk | ⟨_, hset⟩ := step_notifyArmed h
      · exact hk ▸ hunarmed
      · simp [hset] at hunarmed
    have hfields := hstep.captureFields_eq_of_unarmed hs_unarmed
    simp only [Slot.captureFields, Prod.mk.injEq] at hfields
    obtain ⟨hlevel, hrise, hwidth⟩ := hfields
    rw [hlevel, hrise, hwidth]
    exact hi.nothing_captured hs_unarmed i sl hs

theorem slotReset_inv (p : Params) (i : Nat) : (Slot.reset p i).Inv p i :=
  ⟨rfl, nofun, fun _ => .inr rfl, nofun, fun _ => rfl⟩

/-- A slot of the reset state. -/
theorem resetWith_slot (p : Params) (i : Nat) :
    (State.resetWith p).slots[i]? = if i < p.N then some (Slot.reset p i) else none := by
  rw [State.resetWith, resetSlots_get, Nat.zero_add]

theorem eq_slotReset (h : (State.resetWith p).slots[i]? = some sl) : sl = Slot.reset p i := by
  rw [resetWith_slot] at h
  split at h
  · exact (Option.some.inj h).symm
  · cases h

theorem resetWith_inv (p : Params) : (State.resetWith p).Inv p where
  slot_count := resetSlots_length p 0 p.N
  slot_inv i _ h := eq_slotReset h ▸ slotReset_inv p i
  nothing_captured _ _ _ h := eq_slotReset h ▸ ⟨rfl, rfl, rfl⟩

/-- A line is driven as its mode says. -/
theorem lineDrive_of_slot (p : Params) (h : s.slots[c]? = some sl) :
    s.lineDrive p c = if sl.lineMode = .output then some (p.disabledDriveLevel c) else none := by
  simp only [State.lineDrive, h]

theorem lineDrive_of_none (p : Params) (h : s.slots[c]? = none) : s.lineDrive p c = none := by
  simp only [State.lineDrive, h]

/-- A step that takes no ENABLE and no DISABLE of the channel off the port keeps the line's mode (R32). -/
theorem SlotStep.lineMode_eq (h : SlotStep s t i sl sl')
    (henable : ∀ rest, decode s.hostIn = .command (.enable i) rest → t.hostIn ≠ rest)
    (hdisable : ∀ rest, decode s.hostIn = .command (.disable i) rest → t.hostIn ≠ rest) :
    sl'.lineMode = sl.lineMode := by
  cases h with
  | keep => rfl
  | command hd hw =>
    cases hw with
    | keep => rfl
    | enable hinstr => exact absurd rfl (henable _ (hinstr ▸ hd))
    | disable hinstr => exact absurd rfl (hdisable _ (hinstr ▸ hd))
    | setmap _ _ _ _ _ => rfl
  | capture _ =>
    obtain ⟨_, _, _, hmode, _⟩ := slotCapture_keeps t.timer sl
    exact hmode
  | level v => rfl

theorem step_lineDrive (p : Params) (h : step s = .next t)
    (henable : ∀ rest, decode s.hostIn = .command (.enable c) rest → t.hostIn ≠ rest)
    (hdisable : ∀ rest, decode s.hostIn = .command (.disable c) rest → t.hostIn ≠ rest) :
    t.lineDrive p c = s.lineDrive p c := by
  cases ht : t.slots[c]? with
  | some sl' =>
    obtain ⟨sl, hs, hstep⟩ := step_slot_to h ht
    rw [lineDrive_of_slot p ht, lineDrive_of_slot p hs, hstep.lineMode_eq henable hdisable]
  | none =>
    have hs : s.slots[c]? = none := by
      rw [List.getElem?_eq_none_iff] at ht ⊢
      exact (step_N h).symm.trans_le ht
    rw [lineDrive_of_none p ht, lineDrive_of_none p hs]

/-- The line of a valid channel whose slot a command writes is driven as the write says. -/
theorem lineDrive_modify (p : Params) (h : c < s.N) (ht : t.slots = s.slots.modify c f) {mode : LineMode}
    (hmode : ∀ sl, (f sl).lineMode = mode) :
    t.lineDrive p c = if mode = .output then some (p.disabledDriveLevel c) else none := by
  have hslot : t.slots[c]? = some (f s.slots[c]) := by
    rw [ht, getElem?_modify_same (List.getElem?_eq_getElem h)]
  rw [lineDrive_of_slot p hslot, hmode]

end Sys2Proof.Machine

open Sys2Proof.Machine

/-- Settles O29: each part of the invariant by what a step can do to one slot. -/
theorem everyStepKeepsTheInvariant : Obligations.EveryStepKeepsTheInvariant :=
  fun _ _ _ => step_inv

/-- Settles O28: every slot of the reset state is `Slot.reset`, and the parameters are arbitrary. -/
theorem resetMeetsTheInvariant : Obligations.ResetMeetsTheInvariant :=
  ⟨resetWith_inv, resetWith_inv Sys2Proof.Config.params⟩

/-- Settles O26: only a host command moves the arm bit, and only INIT among them. -/
theorem notifyArmedIsSetByInitOnly : Obligations.NotifyArmedIsSetByInitOnly := by
  constructor
  · intro s t h hs
    obtain hk | ⟨_, hset⟩ := step_notifyArmed h
    · exact hk.trans hs
    · exact hset
  · intro s t h hs ht
    obtain hk | ⟨hd, _⟩ := step_notifyArmed h
    · exact absurd (hk.symm.trans ht) (by simp [hs])
    · exact ⟨t.hostIn, hd, rfl⟩

/-- Settles O30: a CAPTURE visit skips a disabled channel, and nothing else moves a captured value. -/
theorem disabledRecordIsFrozen : Obligations.DisabledRecordIsFrozen := by
  constructor
  · intro s t i sl h hs hdisabled
    obtain ⟨sl', ht, hstep⟩ := step_slot_from h hs
    refine ⟨sl', ht, ?_⟩
    obtain hk | ⟨_, rfl⟩ := hstep.captureFields_eq_or
    · exact hk
    · rw [slotCapture_of_disabled _ hdisabled]
  · intro s c
    obtain ⟨t, ht⟩ := exec_next (.disable c) s
    obtain ⟨u, hu⟩ := exec_next (.enable c) s
    exact ⟨⟨t, ht, (exec_captureFields ht).1⟩, u, hu, (exec_captureFields hu).1⟩

/-- Settles O48: the reset drive by the reset mode of the line, then what a step can do to the line's mode. -/
theorem untouchedLineKeepsItsDrive : Obligations.UntouchedLineKeepsItsDrive := by
  intro p c
  have hreset (hc : c < p.N) : (State.resetWith p).slots[c]? = some (Slot.reset p c) := by
    rw [resetWith_slot, if_pos hc]
  refine ⟨fun hc hmode => ?_, fun hc hmode => ?_, fun s t => step_lineDrive p⟩
  · rw [lineDrive_of_slot p (hreset hc)]
    exact if_pos hmode
  · rw [lineDrive_of_slot p (hreset hc)]
    exact if_neg (by simp [Slot.reset, hmode])

/-- Settles O14: by the mode ENABLE and DISABLE give the line. -/
theorem disabledLineDrivesItsLevel : Obligations.DisabledLineDrivesItsLevel :=
  fun p _ _ hc =>
    ⟨⟨_, rfl, lineDrive_modify p hc rfl (mode := .input) fun _ => rfl⟩,
      _, rfl, lineDrive_modify p hc rfl (mode := .output) fun _ => rfl⟩

end

section
/-! PROOFS. The captured values of one channel along a run, and the width as the difference of two samples
(spec/10_state.md R23, R24, spec/40_capture.md R84, R153). -/

namespace Sys2Proof.Machine

variable {s t : State} {i : Nat} {level : Level} {rise width : Word}

theorem lastLevelOf_eq (s : State) (i : Nat) : s.lastLevelOf i = s.captureFields[i]?.map (·.1) := by
  rw [State.captureFields, List.getElem?_map, Option.map_map]
  rfl

theorem widthOf_eq (s : State) (i : Nat) : s.widthOf i = s.captureFields[i]?.map (·.2.2) := by
  rw [State.captureFields, List.getElem?_map, Option.map_map]
  rfl

/-- A channel with a last level has captured values. -/
theorem captureFields_of_lastLevelOf (h : s.lastLevelOf i = some level) :
    ∃ rise width, s.captureFields[i]? = some (level, rise, width) := by
  rw [lastLevelOf_eq, Option.map_eq_some_iff] at h
  obtain ⟨⟨_, rise, width⟩, hs, rfl⟩ := h
  exact ⟨rise, width, hs⟩

/-- Everything a step can do to the captured values of a channel: keep them, record a rising edge at the timer sample,
or record a falling edge and commit the time since the rising one. -/
theorem step_captureFields_cases (h : step s = .next t) (hs : s.captureFields[i]? = some (level, rise, width)) :
    t.captureFields[i]? = some (level, rise, width) ∨
    (level = .low ∧ t.captureFields[i]? = some (.high, t.timer, width)) ∨
    (level = .high ∧ t.captureFields[i]? = some (.low, rise, wrap32 ((t.timer.toNat : Int) - rise.toNat))) := by
  obtain hk | hcapture := step_captureFields h
  · exact .inl (hk ▸ hs)
  · rw [State.captureFields, List.getElem?_map, Option.map_eq_some_iff] at hs
    obtain ⟨sl, hslot, hfields⟩ := hs
    cases hfields
    have ht : t.captureFields[i]? = some (sl.capture t.timer).captureFields := by
      rw [State.captureFields, List.getElem?_map, hcapture, List.getElem?_map, hslot]
      rfl
    rw [ht]
    obtain hk | ⟨_, hlow, _, hrise⟩ | ⟨_, hhigh, _, hfall⟩ := slotCapture_cases t.timer sl
    · exact .inl (by rw [hk]; rfl)
    · exact .inr (.inl ⟨hlow, by rw [hrise]; rfl⟩)
    · exact .inr (.inr ⟨hhigh, by rw [hfall]; rfl⟩)

theorem stepsThrough_start {P : State → Prop} {n : Nat} (h : stepsThrough P n s t) : P s := by
  cases n with
  | zero => exact h.1
  | succ n => exact h.1

/-- What holds at the start of a run and what every step of the run keeps holds at its end. -/
theorem stepsThrough_induction {P Q : State → Prop} {n : Nat} (h : stepsThrough P n s t) (hs : Q s)
    (hstep : ∀ x y, Q x → step x = .next y → P y → Q y) : Q t := by
  induction n generalizing s with
  | zero =>
    obtain ⟨_, rfl⟩ := h
    exact hs
  | succ n ih =>
    obtain ⟨_, x, hx, hrest⟩ := h
    exact ih hrest (hstep s x hs hx (stepsThrough_start hrest))

/-- Channel `i` is recorded High, its rising edge at the timer sample `now`. -/
def State.RoseAt (i : Nat) (now : Word) (s : State) : Prop :=
  ∃ width, s.captureFields[i]? = some (.high, now, width)

/-- A step that takes `lastLevel` from Low to High records its timer sample (R23). -/
theorem roseAt_of_rise (hs : s.lastLevelOf i = some .low) (h : step s = .next t)
    (ht : t.lastLevelOf i = some .high) : t.RoseAt i t.timer := by
  obtain ⟨rise, width, hfields⟩ := captureFields_of_lastLevelOf hs
  obtain hkeep | ⟨_, hrise⟩ | ⟨hhigh, _⟩ := step_captureFields_cases h hfields
  · simp [lastLevelOf_eq, hkeep] at ht
  · exact ⟨width, hrise⟩
  · cases hhigh

/-- While `lastLevel` stays High no step moves the recorded rising edge. -/
theorem State.RoseAt.keep {now : Word} (hs : s.RoseAt i now) (h : step s = .next t)
    (ht : t.lastLevelOf i = some .high) : t.RoseAt i now := by
  obtain ⟨width, hfields⟩ := hs
  obtain hkeep | ⟨hlow, _⟩ | ⟨_, hfall⟩ := step_captureFields_cases h hfields
  · exact ⟨width, hkeep⟩
  · cases hlow
  · simp [lastLevelOf_eq, hfall] at ht

/-- A step that takes `lastLevel` from High to Low commits the time since the recorded rising edge (R24). -/
theorem State.RoseAt.widthOf_of_fall {now : Word} (hs : s.RoseAt i now) (h : step s = .next t)
    (ht : t.lastLevelOf i = some .low) : t.widthOf i = some (wrap32 ((t.timer.toNat : Int) - now.toNat)) := by
  obtain ⟨width, hfields⟩ := hs
  obtain hkeep | ⟨hlow, _⟩ | ⟨_, hfall⟩ := step_captureFields_cases h hfields
  · simp [lastLevelOf_eq, hkeep] at ht
  · cases hlow
  · rw [widthOf_eq, hfall]
    rfl

end Sys2Proof.Machine

open Sys2Proof.Machine

/-- Settles O34: the rising edge stays recorded along the run, and the falling edge is measured from it. -/
theorem widthIsTheDifferenceOfTwoSamples : Obligations.WidthIsTheDifferenceOfTwoSamples := by
  intro n i s u v w hs hrise hu hrun hfall hw
  have hv : v.RoseAt i u.timer :=
    stepsThrough_induction hrun (roseAt_of_rise hs hrise hu) fun _ _ hx hstep hy => hx.keep hstep hy
  exact hv.widthOf_of_fall hfall hw

end

section
/-! PROOFS. Which fields an operation reads and writes: it commutes with blotting out the others (spec/10_state.md R22,
R23, R26, R34, R36, R37). -/

namespace Sys2Proof.Machine

variable {s t : State} {instr : Instr}

theorem slotCapture_blotMapping (now : Word) (sl : Slot) :
    Slot.capture now { sl with map := .reset } = { sl.capture now with map := .reset } := by
  unfold Slot.capture
  split <;> rfl

/-- A CAPTURE step reads no mapping record. -/
theorem capture_blotMappings (s : State) : s.blotMappings.capture = s.capture.blotMappings := by
  simp only [State.capture, State.blotMappings, List.map_map]
  congr 2
  exact funext (slotCapture_blotMapping s.timer)

theorem capture_hostFields (s : State) : s.capture.hostFields = s.hostFields := by
  rw [State.hostFields, capture_slots, List.map_map]
  exact List.map_congr_left fun sl _ => slotCapture_hostFields s.timer sl

/-- The slot with everything blotted out that no command may read. -/
def Slot.blotUnread (sl : Slot) : Slot :=
  { sl with ch := { sl.ch with lastLevel := .low, lastRisingTimestamp := 0 }, level := .low }

theorem blotUnread_slots (s : State) : s.blotUnread.slots = s.slots.map Slot.blotUnread := rfl

theorem blotUnread_N (s : State) : s.blotUnread.N = s.N := List.length_map _

theorem blotUnread_getElem? (s : State) (c : Nat) : s.blotUnread.slots[c]? = s.slots[c]?.map Slot.blotUnread :=
  List.getElem?_map

theorem respond_blotUnread (s : State) (w : Word) : s.blotUnread.respond w = (s.respond w).blotUnread := rfl

/-- A write to a slot that commutes with the blotting out of a slot commutes with it in the state. -/
theorem updateSlot_blotUnread {f : Slot → Slot} (h : ∀ sl, f sl.blotUnread = (f sl).blotUnread) (s : State) (c : Nat) :
    s.blotUnread.updateSlot c f = (s.updateSlot c f).blotUnread := by
  have hslots : (s.slots.map Slot.blotUnread).modify c f = (s.slots.modify c f).map Slot.blotUnread := by
    apply List.ext_getElem?
    intro i
    simp only [List.getElem?_map, List.getElem?_modify]
    cases s.slots[i]? with
    | none => rfl
    | some sl => by_cases hi : c = i <;> simp [hi, h]
  exact congrArg (fun slots => { s.blotUnread with slots := slots }) hslots

theorem lastWidth_blotUnread (s : State) (c : Nat) : s.blotUnread.lastWidth c = s.lastWidth c := by
  simp only [State.lastWidth, blotUnread_getElem?]
  cases s.slots[c]? <;> rfl

theorem acceptsMapping_blotUnread (s : State) (c : Nat) (lo hi a b : Word) :
    s.blotUnread.acceptsMapping c lo hi a b = s.acceptsMapping c lo hi a b := by
  simp only [State.acceptsMapping, State.valid, blotUnread_N]

theorem respondF32_blotUnread (s : State) (v : F32) : s.blotUnread.respondF32 v = (s.respondF32 v).blotUnread := by
  unfold State.respondF32
  cases bits32 v <;> rfl

theorem getChannel_blotUnread (s : State) (c : Nat) : s.blotUnread.getChannel c = (s.getChannel c).blotUnread := by
  simp only [State.getChannel, blotUnread_getElem?]
  cases s.slots[c]? with
  | none => rfl
  | some sl =>
    by_cases hvalid : sl.map.valid = true
    · simp [hvalid, Slot.blotUnread, respondF32_blotUnread]
    · simp [hvalid, Slot.blotUnread]
      rfl

/-- A command does to the blotted state what it does to the state, blotted: it reads nothing that is blotted out. -/
theorem exec_blotUnread (h : exec instr s = .next t) : exec instr s.blotUnread = .next t.blotUnread := by
  cases instr with
  | init =>
    cases h
    rfl
  | enable c =>
    cases h
    rw [exec, execEnable, updateSlot_blotUnread, respond_blotUnread]
    exact fun _ => rfl
  | disable c =>
    cases h
    rw [exec, execDisable, updateSlot_blotUnread, respond_blotUnread]
    exact fun _ => rfl
  | lastwidth c =>
    cases h
    rw [exec, execLastwidth, lastWidth_blotUnread, respond_blotUnread]
  | setmap c lo hi a b =>
    cases h
    rw [exec, execSetmap, acceptsMapping_blotUnread]
    split
    · rw [updateSlot_blotUnread, respond_blotUnread]
      exact fun _ => rfl
    · rw [respond_blotUnread]
  | getchannel c =>
    cases h
    rw [exec, execGetchannel, getChannel_blotUnread]

end Sys2Proof.Machine

open Sys2Proof.Machine

/-- Settles O32: each operation's writes, and a CAPTURE step's commuting with the blotting out of the mappings. -/
theorem fieldsHaveTheirOwners : Obligations.FieldsHaveTheirOwners := by
  refine ⟨fun i s t h => ?_, fun s => ⟨capture_hostFields s, rfl⟩, fun s t h => ?_, setLevel_fields⟩
  · obtain ⟨hcaptured, hlevels⟩ := exec_captureFields h
    obtain ⟨_, hpending, htimer, _⟩ := exec_frame h
    exact ⟨hcaptured, hpending, hlevels, htimer⟩
  · rw [← capture_blotMappings, h, capture_blotMappings]

/-- Settles O33: each command commutes with the blotting out. -/
theorem commandsDoNotReadCaptureInputs : Obligations.CommandsDoNotReadCaptureInputs := by
  intro i s t s' t' hst hs ht
  have hs' := exec_blotUnread hs
  rw [hst, exec_blotUnread ht] at hs'
  exact (Host.Outcome.next.inj hs').symm

end

section
/-! PROOFS. A command run again leaves and answers the same: the second response replaces the first, a slot write made
again changes nothing, and no read depends on the response word (spec/20_memory.md R52). -/

namespace Sys2Proof.Machine

variable {s : State} {c : Nat} {f : Slot → Slot}

/-- A slot write, answered with `w`, made again changes nothing when `f` made again changes nothing. -/
theorem updateSlot_respond_again (hf : ∀ sl, f (f sl) = f sl) (s : State) (c : Nat) (w : Word) :
    (((s.updateSlot c f).respond w).updateSlot c f).respond w = (s.updateSlot c f).respond w := by
  have hslots : (s.slots.modify c f).modify c f = s.slots.modify c f := modify_modify hf
  exact congrArg (fun slots => { s with slots := slots, response := some w }) hslots

theorem respond_respond (s : State) (v w : Word) : (s.respond v).respond w = s.respond w := rfl

theorem lastWidth_respond (s : State) (c : Nat) (v : Word) : (s.respond v).lastWidth c = s.lastWidth c := rfl

theorem respondUnmapped_respond (s : State) (v : Word) : (s.respond v).respondUnmapped = s.respondUnmapped := rfl

theorem respondF32_respond (s : State) (v : Word) (x : F32) : (s.respond v).respondF32 x = s.respondF32 x := by
  unfold State.respondF32
  cases bits32 x <;> rfl

/-- GETCHANNEL does not read the response it replaces, whether or not it draws. -/
theorem getChannel_respond (s : State) (c : Nat) (v : Word) : (s.respond v).getChannel c = s.getChannel c := by
  simp only [State.getChannel, respond_slots, respond_respond, respondF32_respond, respondUnmapped_respond]

/-- All that a GETCHANNEL without a draw writes is the response. -/
theorem getChannel_eq_respond (hd : (s.getChannel c).draws = s.draws) : ∃ w, s.getChannel c = s.respond w := by
  obtain ⟨w, d, hget⟩ := getChannel_cases s c
  have hds : d = s.draws := by rwa [hget] at hd
  exact ⟨w, by rw [hget, hds]; rfl⟩

theorem getChannel_getChannel (hd : (s.getChannel c).draws = s.draws) :
    (s.getChannel c).getChannel c = s.getChannel c := by
  obtain ⟨w, hget⟩ := getChannel_eq_respond hd
  calc (s.getChannel c).getChannel c
    _ = (s.respond w).getChannel c := by rw [hget]
    _ = s.getChannel c := getChannel_respond s c w

end Sys2Proof.Machine

open Sys2Proof.Machine

/-- Settles O21: ENABLE and DISABLE by the slot write made again, LASTWIDTH and a GETCHANNEL without a draw because
what they write, the response, is nothing they read. -/
theorem commandsAreIdempotent : Obligations.CommandsAreIdempotent := by
  intro s c
  refine ⟨⟨_, rfl, rfl⟩, ⟨_, rfl, ?enable⟩, ⟨_, rfl, ?disable⟩, ⟨_, rfl, ?lastwidth⟩, ⟨_, rfl, fun hd => ?getchannel⟩⟩
  case enable => exact congrArg Host.Outcome.next (updateSlot_respond_again enable_enable s c 0)
  case disable => exact congrArg Host.Outcome.next (updateSlot_respond_again disable_disable s c 0)
  case lastwidth => rw [exec, execLastwidth, lastWidth_respond, respond_respond]
  case getchannel => exact congrArg Host.Outcome.next (getChannel_getChannel hd)

end

section
/-! PROOFS. The decoder and the encoder as inverses of each other, on whole transactions (spec/30_encoding.md R61 to R65,
R67, R69). Both go through the three parts of an encoding: opcode, channel index and operand words. -/

namespace Sys2Proof

variable {i : Instr} {cmd : Word} {ws ops rest : List Word} {why : IllegalReason}

/-- Bits 31:24 of the command word of a command (R64). -/
def Instr.opcode : Instr → Nat
  | .init => 0x01
  | .enable _ => 0x02
  | .disable _ => 0x03
  | .lastwidth _ => 0x04
  | .setmap _ _ _ _ _ => 0x05
  | .getchannel _ => 0x06

/-- Bits 7:0 of the command word of a command; zero for INIT, which names no channel (R62, R67). -/
def Instr.channelIndex (i : Instr) : Nat := i.channel.getD 0

/-- The operand words of a command (R65). -/
def Instr.operands : Instr → List Word
  | .setmap _ rawMin rawMax outMin outMax => [rawMin, rawMax, outMin, outMax]
  | .init | .enable _ | .disable _ | .lastwidth _ | .getchannel _ => []

theorem encode_eq_parts (i : Instr) : encode i = commandWord i.opcode i.channelIndex :: i.operands := by
  cases i <;> rfl

theorem Instr.opcode_lt (i : Instr) : i.opcode < 256 := by
  cases i <;> simp [Instr.opcode]

theorem wellFormed_iff_channelIndex (i : Instr) : i.wellFormed = true ↔ i.channelIndex < 256 := by
  cases i <;> simp [Instr.wellFormed, channelFits, Instr.channelIndex, Instr.channel]

/-- The encoding of a command is as long as the framing asks for (R60, R69). -/
theorem operands_length (h : i.wellFormed = true) :
    i.operands.length = operandCount (commandWord i.opcode i.channelIndex) := by
  rw [operandCount_eq, opcodeField_commandWord i.opcode_lt ((wellFormed_iff_channelIndex i).mp h)]
  cases i <;> rfl

/-- Fields decode to the command whose parts they are, and to no other. -/
theorem decodeFields_eq_ok_iff {op c : Nat} (h : ops.length = if op = 5 then 4 else 0) :
    decodeFields op c ops = .ok i ↔ op = i.opcode ∧ c = i.channelIndex ∧ ops = i.operands := by
  constructor
  · intro hd
    unfold decodeFields at hd
    split at hd
    case h_1 =>
      split at hd
      · next hc => cases hd; exact ⟨rfl, hc, List.eq_nil_of_length_eq_zero h⟩
      · cases hd
    case h_5 =>
      split at hd
      · cases hd; exact ⟨rfl, rfl, rfl⟩
      · cases hd
    case h_7 => cases hd
    all_goals cases hd; exact ⟨rfl, rfl, List.eq_nil_of_length_eq_zero h⟩
  · rintro ⟨rfl, rfl, rfl⟩
    cases i <;> rfl

/-- The words of a whole transaction mean a command exactly when they are its encoding. -/
theorem decodeCommand_eq_ok_iff (h : ops.length = operandCount cmd) :
    decodeCommand cmd ops = .ok i ↔ i.wellFormed = true ∧ cmd :: ops = encode i := by
  rw [wellFormed_iff_channelIndex, encode_eq_parts, List.cons.injEq]
  constructor
  · intro hd
    unfold decodeCommand at hd
    split at hd
    · next hr =>
      rw [operandCount_eq] at h
      obtain ⟨hop, hc, hops⟩ := (decodeFields_eq_ok_iff h).mp hd
      rw [← hop, ← hc]
      exact ⟨(channelField cmd).isLt, eq_commandWord hr, hops⟩
    · cases hd
  · rintro ⟨hc, rfl, rfl⟩
    rw [operandCount_eq, opcodeField_commandWord i.opcode_lt hc] at h
    rw [decodeCommand_commandWord i.opcode_lt hc]
    exact (decodeFields_eq_ok_iff h).mpr ⟨rfl, rfl, rfl⟩

/-- A legal transaction, whole at the port, decodes. -/
theorem decode_of_ok (h : ops.length = operandCount cmd) (hd : decodeCommand cmd ops = .ok i) :
    decode (cmd :: ops ++ rest) = .command i rest := by
  simp only [decode, takeTransaction_whole h, hd]

/-- An illegal transaction, whole at the port, is found illegal. -/
theorem decode_of_error (h : ops.length = operandCount cmd) (hd : decodeCommand cmd ops = .error why) :
    decode (cmd :: ops ++ rest) = .illegal why rest := by
  simp only [decode, takeTransaction_whole h, hd]

/-- What decodes to a command is a whole transaction and the words after it. -/
theorem exists_of_decode_command (h : decode ws = .command i rest) :
    ∃ cmd ops, ws = cmd :: ops ++ rest ∧ ops.length = operandCount cmd ∧ decodeCommand cmd ops = .ok i := by
  unfold decode at h
  split at h
  · cases h
  · next cmd ops _ ht =>
    obtain ⟨hws, hlen⟩ := takeTransaction_eq_some ht
    split at h
    · next hd => cases h; exact ⟨cmd, ops, hws, hlen, hd⟩
    · cases h

/-- Decoding and encoding are inverse on the well-formed commands. -/
theorem decode_eq_command_iff : decode ws = .command i rest ↔ i.wellFormed = true ∧ ws = encode i ++ rest := by
  constructor
  · intro h
    obtain ⟨cmd, ops, rfl, hlen, hd⟩ := exists_of_decode_command h
    obtain ⟨hwf, he⟩ := (decodeCommand_eq_ok_iff hlen).mp hd
    exact ⟨hwf, by rw [he]⟩
  · rintro ⟨hwf, rfl⟩
    have he := encode_eq_parts i
    have hd := (decodeCommand_eq_ok_iff (operands_length hwf)).mpr ⟨hwf, he.symm⟩
    rw [he]
    exact decode_of_ok (operands_length hwf) hd

/-- A transaction is waited for until it is whole (R60). -/
theorem decode_cons_of_length_lt (h : ws.length < operandCount cmd) : decode (cmd :: ws) = .waiting := by
  simp only [decode, takeTransaction, if_pos h]

/-- A whole transaction is taken off the port, legal or not (R69). -/
theorem decode_cons_of_le_length (h : operandCount cmd ≤ ws.length) :
    (∃ i, decode (cmd :: ws) = .command i (ws.drop (operandCount cmd))) ∨
      ∃ why, decode (cmd :: ws) = .illegal why (ws.drop (operandCount cmd)) := by
  have hlen : (ws.take (operandCount cmd)).length = operandCount cmd := List.length_take_of_le h
  have hws : cmd :: ws = cmd :: ws.take (operandCount cmd) ++ ws.drop (operandCount cmd) := by simp
  rw [hws]
  cases hd : decodeCommand cmd (ws.take (operandCount cmd)) with
  | ok i => exact .inl ⟨i, decode_of_ok hlen hd⟩
  | error why => exact .inr ⟨why, decode_of_error hlen hd⟩

/-- The framing as the spec states it, over the number of the command word (R69). -/
theorem operandCount_eq_of_toNat (cmd : Word) : operandCount cmd = if cmd.toNat / 2 ^ 24 = 0x05 then 4 else 0 := by
  rw [operandCount_eq, opcodeField_toNat]

end Sys2Proof

open Sys2Proof

/-- Settles O1: an encoding is what decodes to its command. -/
theorem decodeOfEncodeIsTheCommand : Obligations.DecodeOfEncodeIsTheCommand :=
  fun _ _ hwf => decode_eq_command_iff.mpr ⟨hwf, rfl⟩

/-- Settles O2: what decodes to a command is its encoding. -/
theorem encodeOfDecodeIsTheWords : Obligations.EncodeOfDecodeIsTheWords :=
  fun _ _ _ hd => decode_eq_command_iff.mp hd

/-- Settles O3: the legal words are encodings, so O1 decodes them; the illegal one is an INIT with a channel. -/
theorem wordsOfTheEncodingTableDecode : Obligations.WordsOfTheEncodingTableDecode :=
  ⟨decodeOfEncodeIsTheCommand .init [] rfl, decodeOfEncodeIsTheCommand (.enable 3) [] rfl,
    decodeOfEncodeIsTheCommand (.disable 7) [] rfl, decodeOfEncodeIsTheCommand (.lastwidth 2) [] rfl,
    decodeOfEncodeIsTheCommand (.setmap 0 1000#32 2000#32 0xBF800000#32 0x3F800000#32) [] rfl,
    decodeOfEncodeIsTheCommand (.getchannel 0) [] rfl,
    decode_of_error (cmd := 0x01000005#32) (ops := []) rfl rfl⟩

/-- Settles O5: the framing reads the opcode field and nothing else. -/
theorem framingFollowsTheOpcode : Obligations.FramingFollowsTheOpcode := by
  intro cmd ws
  rw [← operandCount_eq_of_toNat cmd]
  exact ⟨decode_cons_of_length_lt, decode_cons_of_le_length⟩

end

section
/-! PROOFS. The rows of spec/opcode_table.json against the decoder (spec/30_encoding.md R64, R68): a row compares the
opcode, wants the reserved bits zero, and wants the channel bits zero that its mask holds. -/

namespace Sys2Proof

variable {i : Instr} {r r₁ r₂ : OpcodeRow} {cmd : Word} {ops : List Word}

/-- A word is its three fields. -/
theorem word_eq_iff_fields (a b : Word) :
    a = b ↔ opcodeField a = opcodeField b ∧ reservedField a = reservedField b ∧ channelField a = channelField b := by
  refine ⟨by rintro rfl; exact ⟨rfl, rfl, rfl⟩, fun ⟨ho, hr, hc⟩ => BitVec.eq_of_toNat_eq ?_⟩
  have ho' := congrArg BitVec.toNat ho
  have hr' := congrArg BitVec.toNat hr
  have hc' := congrArg BitVec.toNat hc
  rw [opcodeField_toNat, opcodeField_toNat] at ho'
  rw [reservedField_toNat, reservedField_toNat] at hr'
  rw [channelField_toNat, channelField_toNat] at hc'
  omega

/-- A mask works on each field by itself. -/
theorem and_eq_iff_fields (cmd mask pattern : Word) :
    cmd &&& mask = pattern ↔ opcodeField cmd &&& opcodeField mask = opcodeField pattern ∧
      reservedField cmd &&& reservedField mask = reservedField pattern ∧
      channelField cmd &&& channelField mask = channelField pattern := by
  simp only [word_eq_iff_fields, opcodeField, reservedField, channelField, BitVec.extractLsb'_and]

/-- Which bits a row fixes: all of the opcode and the reserved bits, and of the channel field INIT's alone. -/
theorem opcodeTable_fields : ∀ r ∈ opcodeTable,
    opcodeField r.mask = BitVec.allOnes 8 ∧
      reservedField r.mask = BitVec.allOnes 16 ∧ reservedField r.pattern = 0 ∧
      channelField r.mask = (if r.mnemonic = "INIT" then BitVec.allOnes 8 else 0) ∧ channelField r.pattern = 0 := by
  decide

theorem covers_iff_fields (hr : r ∈ opcodeTable) :
    r.covers cmd = true ↔ opcodeField cmd = opcodeField r.pattern ∧ reservedField cmd = 0 ∧
      (r.mnemonic = "INIT" → channelField cmd = 0) := by
  obtain ⟨hop, hres, hres0, hchan, hchan0⟩ := opcodeTable_fields r hr
  rw [OpcodeRow.covers, beq_iff_eq, and_eq_iff_fields, hop, hres, hres0, hchan, hchan0, BitVec.and_allOnes,
    BitVec.and_allOnes]
  by_cases hinit : r.mnemonic = "INIT"
  · rw [if_pos hinit, BitVec.and_allOnes]
    simp only [hinit, forall_const]
  · simp [hinit]

/-- The rows differ in their opcodes. -/
theorem row_eq_of_opcode_eq : ∀ r₁ ∈ opcodeTable, ∀ r₂ ∈ opcodeTable,
    opcodeField r₁.pattern = opcodeField r₂.pattern → r₁ = r₂ := by
  decide

theorem operandCount_of_row : ∀ r ∈ opcodeTable,
    r.operandWords = if opcodeField r.pattern = 0x05#8 then 4 else 0 := by
  decide

theorem opcodeField_opcodeTable : ∀ k (hk : k < opcodeTable.length),
    (opcodeField opcodeTable[k].pattern).toNat = k + 1 := by
  decide

/-- Every command has its row. -/
theorem exists_row : ∀ i : Instr,
    ∃ r ∈ opcodeTable, r.mnemonic = i.mnemonic ∧ (opcodeField r.pattern).toNat = i.opcode
  | .init => ⟨_, List.getElem_mem _, rfl, opcodeField_opcodeTable 0 (by decide)⟩
  | .enable _ => ⟨_, List.getElem_mem _, rfl, opcodeField_opcodeTable 1 (by decide)⟩
  | .disable _ => ⟨_, List.getElem_mem _, rfl, opcodeField_opcodeTable 2 (by decide)⟩
  | .lastwidth _ => ⟨_, List.getElem_mem _, rfl, opcodeField_opcodeTable 3 (by decide)⟩
  | .setmap _ _ _ _ _ => ⟨_, List.getElem_mem _, rfl, opcodeField_opcodeTable 4 (by decide)⟩
  | .getchannel _ => ⟨_, List.getElem_mem _, rfl, opcodeField_opcodeTable 5 (by decide)⟩

/-- INIT is the one command without a channel. -/
theorem channelIndex_of_init (h : i.mnemonic = "INIT") : i.channelIndex = 0 := by
  cases i <;> simp_all [Instr.mnemonic, Instr.channelIndex, Instr.channel]

/-- A row of its mnemonic covers the command word of a command. -/
theorem exists_row_covers_commandWord (h : i.wellFormed = true) :
    ∃ r ∈ opcodeTable, r.mnemonic = i.mnemonic ∧ r.covers (commandWord i.opcode i.channelIndex) = true := by
  have hc := (wellFormed_iff_channelIndex i).mp h
  obtain ⟨r, hr, hm, hop⟩ := exists_row i
  refine ⟨r, hr, hm, (covers_iff_fields hr).mpr
    ⟨BitVec.eq_of_toNat_eq ?opcode, reservedField_commandWord i.opcode_lt hc,
      fun hinit => BitVec.eq_of_toNat_eq ?channel⟩⟩
  case opcode => rw [opcodeField_commandWord i.opcode_lt hc, hop]
  case channel => rw [channelField_commandWord i.opcode_lt hc, channelIndex_of_init (hm ▸ hinit)]; rfl

/-- A word that a row covers, with its operand words, is a command with the row's mnemonic. -/
theorem exists_decodeCommand_of_covers (h : ops.length = operandCount cmd) (hr : r ∈ opcodeTable)
    (hcov : r.covers cmd = true) : ∃ i, decodeCommand cmd ops = .ok i ∧ i.mnemonic = r.mnemonic := by
  obtain ⟨hop, hres, hchan⟩ := (covers_iff_fields hr).mp hcov
  rw [operandCount, hop] at h
  simp only [decodeCommand, if_pos hres, hop]
  simp only [opcodeTable, List.mem_cons, List.not_mem_nil, or_false] at hr
  obtain rfl | rfl | rfl | rfl | rfl | rfl := hr
  · exact ⟨.init, by rw [hchan rfl]; rfl, rfl⟩
  · exact ⟨.enable _, rfl, rfl⟩
  · exact ⟨.disable _, rfl, rfl⟩
  · exact ⟨.lastwidth _, rfl, rfl⟩
  · obtain ⟨w0, w1, w2, w3, rfl⟩ := List.length_eq_four.mp h
    exact ⟨.setmap _ w0 w1 w2 w3, rfl, rfl⟩
  · exact ⟨.getchannel _, rfl, rfl⟩

end Sys2Proof

open Sys2Proof

/-- Settles O4: the row of a command covers its word, a covered word is a command of the row, and a row is fixed by the
opcode of the words it covers. -/
theorem opcodeTableDecidesTheCommand : Obligations.OpcodeTableDecidesTheCommand := by
  refine ⟨fun cmd ops rest m hlen => ⟨?row, ?command⟩, fun cmd r₁ h₁ r₂ h₂ hcov₁ hcov₂ => ?unique⟩
  case row =>
    rintro ⟨i, hd, rfl⟩
    obtain ⟨hwf, hws⟩ := decode_eq_command_iff.mp hd
    rw [encode_eq_parts] at hws
    rw [(List.cons.inj hws).1]
    exact exists_row_covers_commandWord hwf
  case command =>
    rintro ⟨row, hmem, rfl, hcov⟩
    obtain ⟨i, hd, hm⟩ := exists_decodeCommand_of_covers hlen hmem hcov
    exact ⟨i, decode_of_ok hlen hd, hm⟩
  case unique =>
    obtain ⟨hop₁, -, -⟩ := (covers_iff_fields h₁).mp hcov₁
    obtain ⟨hop₂, -, -⟩ := (covers_iff_fields h₂).mp hcov₂
    exact ⟨row_eq_of_opcode_eq r₁ h₁ r₂ h₂ (hop₁.symm.trans hop₂),
      by rw [operandCount_of_row r₁ h₁, operandCount, hop₁]⟩

end

section
/-! PROOFS. The host's turn: the command at the port performed, an illegal word passed over
(spec/30_encoding.md R60, R63, R67). -/

namespace Sys2Proof.Machine

variable {s : State} {instr : Instr} {cmd : Word} {ops rest : List Word} {turns : List Turn} {why : IllegalReason}

/-- The command word of a well-formed command is no illegal word. -/
theorem illegalWord_commandWord (h : instr.wellFormed = true) :
    illegalWord (commandWord instr.opcode instr.channelIndex) = false := by
  have hc := (wellFormed_iff_channelIndex instr).mp h
  have hop : 1 ≤ instr.opcode ∧ instr.opcode ≤ 6 ∧ (instr.opcode = 1 → instr.channelIndex = 0) := by
    cases instr <;> simp [Instr.opcode, Instr.channelIndex, Instr.channel]
  rw [illegalWord, commandWord_toNat instr.opcode_lt hc]
  generalize instr.opcode = op at *
  generalize instr.channelIndex = c at *
  simp only [Nat.reducePow, Bool.or_eq_false_iff, decide_eq_false_iff_not, Bool.and_eq_false_imp,
    decide_eq_true_eq, not_le, bne_eq_false_iff_eq]
  omega

/-- An illegal word, with the operand words its opcode asks for, is found illegal. -/
theorem decode_of_illegalWord (hill : illegalWord cmd = true) (hlen : ops.length = operandCount cmd) :
    ∃ why, decode (cmd :: ops ++ rest) = .illegal why rest := by
  cases hd : decodeCommand cmd ops with
  | error why => exact ⟨why, decode_of_error hlen hd⟩
  | ok instr =>
    obtain ⟨hwf, hws⟩ := (decodeCommand_eq_ok_iff hlen).mp hd
    rw [encode_eq_parts] at hws
    rw [(List.cons.inj hws).1, illegalWord_commandWord hwf] at hill
    cases hill

theorem hostTurn_of_command (h : decode s.hostIn = .command instr rest) :
    s.hostTurn = exec instr { s with hostIn := rest } := by
  simp only [State.hostTurn, h]

theorem hostTurn_of_illegal (h : decode s.hostIn = .illegal why rest) :
    s.hostTurn = .next { s with hostIn := rest, response := some 0 } := by
  simp only [State.hostTurn, h]
  rfl

theorem step_of_host (h : s.schedule = .host :: turns) : step s = State.hostTurn { s with schedule := turns } := by
  simp only [step, h]
  rfl

/-- With no turn scheduled and no CAPTURE step enabled, the next step is the host's if its transaction is whole. -/
theorem step_of_hostReady (hs : s.schedule = []) (hc : s.captureEnabled = false) (hr : s.hostReady = true) :
    step s = s.hostTurn := by
  simp [step, hs, State.unscheduledTurn, hc, hr]

theorem hostReady_of_command (h : decode s.hostIn = .command instr rest) : s.hostReady = true := by
  simp [State.hostReady, h]

end Sys2Proof.Machine

open Sys2Proof Sys2Proof.Machine

/-- Settles O6: the word is found illegal, and the host's turn passes it over. -/
theorem illegalWordIsASilentNoOp : Obligations.IllegalWordIsASilentNoOp := by
  intro s cmd ops rest turns hill hlen hin hs
  rw [← operandCount_eq_of_toNat] at hlen
  obtain ⟨why, hd⟩ := decode_of_illegalWord (rest := rest) hill hlen
  rw [← hin] at hd
  rw [step_of_host hs]
  exact hostTurn_of_illegal hd

/-- Settles O7: either way the step is the host's turn. -/
theorem stepRunsTheDecodedCommand : Obligations.StepRunsTheDecodedCommand := by
  intro s instr rest hd
  refine ⟨fun turns hs => ?scheduled, fun hs hc => ?unscheduled⟩
  case scheduled => rw [step_of_host hs]; exact hostTurn_of_command hd
  case unscheduled => rw [step_of_hostReady hs hc (hostReady_of_command hd), hostTurn_of_command hd]

end

section
/-! PROOFS. A list of commands, each of which writes the slot it names (spec/30_encoding.md R72, R73). -/

namespace Sys2Proof.Machine

variable {s : State} {cs : List Nat} {f : Slot → Slot} {command : Nat → Instr} {rest : List Word}
  {turns : List Turn}

/-- The slots after `f` was written to each slot of a list of indices in turn. -/
def writeEach (f : Slot → Slot) (cs : List Nat) (slots : List Slot) : List Slot :=
  cs.foldl (fun slots c => slots.modify c f) slots

theorem writeEach_cons (f : Slot → Slot) (c : Nat) (cs : List Nat) (slots : List Slot) :
    writeEach f (c :: cs) slots = writeEach f cs (slots.modify c f) := rfl

theorem writeEach_length (f : Slot → Slot) (cs : List Nat) (slots : List Slot) :
    (writeEach f cs slots).length = slots.length := by
  induction cs generalizing slots with
  | nil => rfl
  | cons c cs ih => rw [writeEach_cons, ih, List.length_modify]

/-- A write that may be made again without effect lands on the listed slots, listed once or more often, and on no
other. -/
theorem getElem?_writeEach (hf : ∀ sl, f (f sl) = f sl) (cs : List Nat) (slots : List Slot) (i : Nat) :
    (writeEach f cs slots)[i]? = slots[i]?.map fun sl => if i ∈ cs then f sl else sl := by
  induction cs generalizing slots with
  | nil => simp [writeEach]
  | cons c cs ih =>
    rw [writeEach_cons, ih]
    by_cases hc : i = c
    · rw [hc, List.getElem?_modify_eq]
      simp [Function.comp_def, hf]
    · rw [getElem?_modify_ne hc]
      simp [hc]

/-- Commands that each make the write `f` to the slot they name, one host turn for each: they make it to every listed
slot, and take their words and turns. -/
theorem stepsTo_commands (hwf : ∀ c, c < 256 → (command c).wellFormed = true)
    (hexec : ∀ c s, exec (command c) s = .next ((s.updateSlot c f).respond 0)) (hcs : ∀ c ∈ cs, c < 256)
    (hs : s.schedule = List.replicate cs.length .host ++ turns)
    (hin : s.hostIn = (cs.map command).flatMap encode ++ rest) :
    ∃ answer, stepsTo cs.length s
      { s with slots := writeEach f cs s.slots, hostIn := rest, schedule := turns, response := answer } := by
  induction cs generalizing s with
  | nil =>
    obtain rfl : s.schedule = turns := hs
    obtain rfl : s.hostIn = rest := hin
    exact ⟨s.response, rfl⟩
  | cons c cs ih =>
    obtain ⟨hc, hcs'⟩ := List.forall_mem_cons.mp hcs
    have hd : decode s.hostIn = .command (command c) ((cs.map command).flatMap encode ++ rest) :=
      decode_eq_command_iff.mpr ⟨hwf c hc, by rw [hin, List.map_cons, List.flatMap_cons, List.append_assoc]⟩
    have hstep := (stepRunsTheDecodedCommand s _ _ hd).1 _ hs
    rw [hexec] at hstep
    obtain ⟨answer, hsteps⟩ := ih (s := State.respond (State.updateSlot { s with
      hostIn := (cs.map command).flatMap encode ++ rest, schedule := List.replicate cs.length .host ++ turns } c f) 0)
      hcs' rfl rfl
    exact ⟨answer, _, hstep, hsteps⟩

/-- What a run of such commands leads to, slot by slot. -/
theorem exists_run_of_commands (hf : ∀ sl, f (f sl) = f sl) (hwf : ∀ c, c < 256 → (command c).wellFormed = true)
    (hexec : ∀ c s, exec (command c) s = .next ((s.updateSlot c f).respond 0)) (hcs : ∀ c ∈ cs, c < 256)
    (hs : s.schedule = List.replicate cs.length .host ++ turns)
    (hin : s.hostIn = (cs.map command).flatMap encode ++ rest) :
    ∃ t, stepsTo cs.length s t ∧ t.N = s.N ∧ t.hostIn = rest ∧ t.schedule = turns ∧
      t.notifyArmed = s.notifyArmed ∧ t.pending = s.pending ∧
      ∀ i sl, s.slots[i]? = some sl → t.slots[i]? = some (if i ∈ cs then f sl else sl) := by
  obtain ⟨answer, hsteps⟩ := stepsTo_commands hwf hexec hcs hs hin
  exact ⟨_, hsteps, writeEach_length f cs s.slots, rfl, rfl, rfl, rfl,
    fun i sl hi => by rw [getElem?_writeEach hf, hi, Option.map_some]⟩

end Sys2Proof.Machine

open Sys2Proof Sys2Proof.Machine

/-- Settles O35: ENABLE and DISABLE each write the slot they name, and made again change nothing. -/
theorem listCommandsActOnEachChannel : Obligations.ListCommandsActOnEachChannel :=
  fun _ _ _ _ hcs hs =>
    ⟨exists_run_of_commands enable_enable (fun _ => decide_eq_true) (fun _ _ => rfl) hcs hs,
      exists_run_of_commands disable_disable (fun _ => decide_eq_true) (fun _ _ => rfl) hcs hs⟩

end

section
/-! PROOFS. The CAPTURE step: what a visit does for each pair of recorded and sampled level, and the loop that visits
the channels one after another (spec/40_capture.md R84 to R86, R89). -/

namespace Sys2Proof.Machine

variable {s t : State} {i : Nat} {sl : Slot}

theorem capture_getElem? (h : s.slots[i]? = some sl) : s.capture.slots[i]? = some (sl.capture s.timer) := by
  rw [capture_slots, List.getElem?_map, h, Option.map_some]

theorem slotCapture_level (now : Word) (sl : Slot) : (sl.capture now).level = sl.level := by
  obtain ⟨_, _, _, _, hlevel⟩ := slotCapture_keeps now sl
  exact hlevel

/-- A visit finds no edge where the level is the recorded one (R86). -/
theorem slotCapture_of_level_eq (now : Word) (h : sl.level = sl.ch.lastLevel) : sl.capture now = sl := by
  obtain hkeep | ⟨_, hlow, hhigh, _⟩ | ⟨_, hhigh, hlow, _⟩ := slotCapture_cases now sl
  · exact hkeep
  · simp [hlow, hhigh] at h
  · simp [hlow, hhigh] at h

/-- A visit to a rising edge records the timer sample (R84, source steps 3 and 4). -/
theorem slotCapture_captureFields_of_rise (now : Word) (henabled : sl.ch.enabled = true)
    (hlow : sl.ch.lastLevel = .low) (hhigh : sl.level = .high) :
    (sl.capture now).captureFields = (.high, now, sl.ch.lastPulseWidth) := by
  simp [Slot.captureFields, Slot.capture, ChannelRecord.sample, risingEdge, henabled, hlow, hhigh]

/-- A visit to a falling edge commits the time since the recorded rising one (R84, source steps 5 and 6). -/
theorem slotCapture_of_fall (now : Word) (henabled : sl.ch.enabled = true)
    (hhigh : sl.ch.lastLevel = .high) (hlow : sl.level = .low) :
    sl.capture now =
      { sl with ch :=
        { sl.ch with
          lastPulseWidth := wrap32 ((now.toNat : Int) - sl.ch.lastRisingTimestamp.toNat), lastLevel := .low } } := by
  simp [Slot.capture, ChannelRecord.sample, risingEdge, fallingEdge, henabled, hlow, hhigh]

/-- A CAPTURE step commits the width of a channel whose line fell (R84). -/
theorem capture_widthOf_of_fall (h : s.slots[i]? = some sl) (henabled : sl.ch.enabled = true)
    (hhigh : sl.ch.lastLevel = .high) (hlow : sl.level = .low) :
    s.capture.widthOf i = some (wrap32 ((s.timer.toNat : Int) - sl.ch.lastRisingTimestamp.toNat)) := by
  rw [State.widthOf, capture_getElem? h, slotCapture_of_fall _ henabled hhigh hlow, Option.map_some]

theorem toNat_wrap32 (v : Int) : ((wrap32 v).toNat : Int) = v % 2 ^ 32 := by
  rw [wrap32, BitVec.toNat_ofInt]
  exact Int.toNat_of_nonneg (Int.emod_nonneg v (by decide))

theorem capture_levels (s : State) : s.capture.levels = s.levels := by
  rw [State.levels, capture_slots, List.map_map]
  exact List.map_congr_left fun sl _ => slotCapture_level s.timer sl

/-- The loop over any order of all the indices visits each slot once. -/
theorem captureLoop_slots_of_perm {order : List Nat} (h : order.Perm (List.range s.N)) (now : Word) :
    (order.foldl (State.captureChannel now) s).slots = s.slots.map (Slot.capture now) := by
  have hnodup : order.Nodup := h.nodup_iff.mpr List.nodup_range
  apply List.ext_getElem?
  intro j
  rw [captureLoop_slots now order hnodup, List.getElem?_map]
  by_cases hj : j < s.N
  · rw [if_pos (h.mem_iff.mpr (List.mem_range.mpr hj))]
  · rw [List.getElem?_eq_none (not_lt.mp hj), Option.map_none, ite_self]

/-- No step moves the committed width of a disabled channel (R89). -/
theorem step_widthOf_of_disabled (h : step s = .next t) (hs : s.enabledOf i = some false) :
    t.widthOf i = s.widthOf i := by
  obtain ⟨sl, hslot, hdisabled⟩ := Option.map_eq_some_iff.mp hs
  obtain ⟨sl', hslot', hfields⟩ := disabledRecordIsFrozen.1 s t i sl h hslot hdisabled
  have hwidth : sl'.ch.lastPulseWidth = sl.ch.lastPulseWidth := congrArg (·.2.2) hfields
  rw [State.widthOf, State.widthOf, hslot, hslot', Option.map_some, Option.map_some, hwidth]

theorem stepsThrough_widthOf_of_disabled {n : Nat} (h : stepsThrough (fun x => x.enabledOf i = some false) n s t) :
    t.widthOf i = s.widthOf i := by
  have hend : t.enabledOf i = some false ∧ t.widthOf i = s.widthOf i :=
    stepsThrough_induction (Q := fun x => x.enabledOf i = some false ∧ x.widthOf i = s.widthOf i) h
      ⟨stepsThrough_start h, rfl⟩
      fun _ _ ⟨hx, hwidth⟩ hstep hy => ⟨hy, (step_widthOf_of_disabled hstep hx).trans hwidth⟩
  exact hend.2

theorem lastWidth_eq_widthOf (s : State) (c : Nat) : s.lastWidth c = (s.widthOf c).getD 0 := by
  rw [State.lastWidth, State.widthOf]
  cases s.slots[c]? <;> rfl

end Sys2Proof.Machine

open Sys2Proof.Machine

/-- Settles O16: one visit for each row of the edge table. -/
theorem captureFollowsTheEdgeTable : Obligations.CaptureFollowsTheEdgeTable := by
  intro s i sl h
  refine ⟨capture_pending s, sl.capture s.timer, capture_getElem? h, slotCapture_hostFields s.timer sl,
    slotCapture_level s.timer sl, slotCapture_of_disabled s.timer, fun henabled => ⟨?rise, ?high, ?fall, ?low⟩⟩
  case rise => exact slotCapture_captureFields_of_rise s.timer henabled
  case high => exact fun hlast hlevel => slotCapture_of_level_eq s.timer (hlevel.trans hlast.symm)
  case fall =>
    intro hhigh hlow
    rw [slotCapture_of_fall _ henabled hhigh hlow]
    exact ⟨rfl, rfl, toNat_wrap32 _⟩
  case low => exact fun hlast hlevel => slotCapture_of_level_eq s.timer (hlevel.trans hlast.symm)

/-- Settles O18: whatever the order, the loop visits each slot once and touches nothing else. -/
theorem captureOrderIsNotObservable : Obligations.CaptureOrderIsNotObservable := by
  intro s order h
  rw [State.captureInOrder, captureLoop_rest, captureLoop_slots_of_perm (s := { s with pending := false }) h]
  rfl

/-- Settles O19, by induction on the number of CAPTURE steps. -/
theorem captureLeavesASteadyChannel : Obligations.CaptureLeavesASteadyChannel := by
  intro s i sl n hslot hsteady
  induction n with
  | zero => exact hslot
  | succ n ih => rw [Function.iterate_succ_apply', capture_getElem? ih, slotCapture_of_level_eq _ hsteady]

/-- Settles O17: the visits write nothing but the records, and no level. -/
theorem captureLeavesPortsAndInputs : Obligations.CaptureLeavesPortsAndInputs :=
  fun s => ⟨rfl, List.length_map _, rfl, rfl, rfl, rfl, rfl, rfl, capture_levels s⟩

/-- Settles O31: no step of the run moves the committed width, and LASTWIDTH answers nothing else. -/
theorem disabledWidthStaysTheSame : Obligations.DisabledWidthStaysTheSame := by
  intro n s t i h
  have hwidth : t.widthOf i = s.widthOf i := stepsThrough_widthOf_of_disabled h
  refine ⟨hwidth, s.respond (s.lastWidth i), t.respond (t.lastWidth i), rfl, rfl, ?_⟩
  rw [respond_response, respond_response, lastWidth_eq_widthOf, lastWidth_eq_widthOf, hwidth]

end

section
/-! PROOFS. The commands of the capture family, with their words and their frames, and the sentinel that answers an
index without a channel (spec/40_capture.md R80 to R83, R88). -/

namespace Sys2Proof.Machine

variable {s : State} {c : Nat} {sl : Slot} {v : Level}

/-- A command word is its row's pattern plus the channel index (R61, R62). -/
theorem commandWord_eq_add (op c : Nat) : commandWord op c = BitVec.ofNat 32 (2 ^ 24 * op) + BitVec.ofNat 32 c :=
  BitVec.ofNat_add _ _

/-- A write to a slot that does not exist leaves the state as it is (R88). -/
theorem updateSlot_of_N_le (h : s.N ≤ c) (f : Slot → Slot) : s.updateSlot c f = s :=
  congrArg (fun slots => { s with slots := slots }) (modify_of_length_le h)

theorem lastWidth_of_slot (h : s.slots[c]? = some sl) : s.lastWidth c = sl.ch.lastPulseWidth := by
  simp only [State.lastWidth, h]

theorem lastWidth_of_N_le (h : s.N ≤ c) : s.lastWidth c = 0 := by
  simp only [State.lastWidth, List.getElem?_eq_none h]

theorem acceptsMapping_of_N_le (h : s.N ≤ c) (lo hi a b : Word) : s.acceptsMapping c lo hi a b = false := by
  simp [State.acceptsMapping, State.valid, h]

theorem getChannel_of_N_le (h : s.N ≤ c) : s.getChannel c = s.respond 0 := by
  simp only [State.getChannel, List.getElem?_eq_none h]

/-- Every command on an index without a channel does nothing but answer 0 (R88). -/
theorem exec_of_N_le {i : Instr} (hi : i.channel = some c) (h : s.N ≤ c) :
    exec i s = .next { s with response := some 0 } := by
  cases i with
  | init => cases hi
  | enable c' =>
    cases hi
    rw [exec, execEnable, updateSlot_of_N_le h]
    rfl
  | disable c' =>
    cases hi
    rw [exec, execDisable, updateSlot_of_N_le h]
    rfl
  | lastwidth c' =>
    cases hi
    rw [exec, execLastwidth, lastWidth_of_N_le h]
    rfl
  | setmap c' lo hi' a b =>
    cases hi
    rw [exec, execSetmap, acceptsMapping_of_N_le h]
    rfl
  | getchannel c' =>
    cases hi
    rw [exec, execGetchannel, getChannel_of_N_le h]
    rfl

theorem updateSlot_respond_getElem? (h : s.slots[c]? = some sl) (f : Slot → Slot) (w : Word) :
    ((s.updateSlot c f).respond w).slots[c]? = some (f sl) :=
  getElem?_modify_same h

theorem sameSlotsBut_updateSlot_respond (s : State) (c : Nat) (f : Slot → Slot) (w : Word) :
    SameSlotsBut c s ((s.updateSlot c f).respond w) :=
  ⟨List.length_modify .., fun _ hj => getElem?_modify_ne hj⟩

theorem sameOutsideSlots_updateSlot_respond (s : State) (c : Nat) (f : Slot → Slot) (w : Word) :
    SameOutsideSlots s ((s.updateSlot c f).respond w) :=
  ⟨rfl, rfl, rfl, rfl, rfl⟩

/-- Driving a line sets its level input and nothing else of its slot (R124). -/
theorem setLevel_getElem? (h : s.slots[c]? = some sl) (v : Level) :
    (s.setLevel c v).slots[c]? = some { sl with level := v } := by
  by_cases hv : v = sl.level
  · subst hv
    simp [State.setLevel, h]
  · rw [setLevel_of_ne h hv]
    exact getElem?_modify_same h

/-- A change of an armed line requests a CAPTURE step (R124). -/
theorem setLevel_pending_of_mask (h : s.slots[c]? = some sl) (hmask : sl.mask = true) (hv : v ≠ sl.level) :
    (s.setLevel c v).pending = true := by
  simp [setLevel_of_ne h hv, hmask]

end Sys2Proof.Machine

open Sys2Proof Sys2Proof.Machine

/-- Settles O20: no command finds a slot to read or write. -/
theorem invalidIndexAnswersTheSentinel : Obligations.InvalidIndexAnswersTheSentinel :=
  fun _ _ _ => exec_of_N_le

/-- Settles O12: the frame of a slot write, then what the next CAPTURE step and the next change of the line find in the
slot ENABLE has written. -/
theorem enableJoinsCapture : Obligations.EnableJoinsCapture := by
  intro s c
  refine ⟨fun _ => congrArg (fun w => [w]) (commandWord_eq_add 0x02 c), exec_of_N_le rfl, fun sl hs => ?_⟩
  have ht := updateSlot_respond_getElem? hs Slot.enable 0
  refine ⟨_, rfl, ht, sameSlotsBut_updateSlot_respond s c _ 0, sameOutsideSlots_updateSlot_respond s c _ 0,
    rfl, rfl, ?again, rfl, ?rise, fun v => setLevel_pending_of_mask (sl := sl.enable) ht rfl⟩
  case again => exact congrArg Host.Outcome.next (updateSlot_respond_again enable_enable s c 0)
  case rise =>
    exact fun hlow hhigh =>
      ⟨_, capture_getElem? ht, slotCapture_captureFields_of_rise (sl := sl.enable) _ rfl hlow hhigh⟩

/-- Settles O13: the frame of a slot write, the visit that skips a disabled channel, and the falling edge a channel
enabled again commits against the old timestamp. -/
theorem disableFreezesTheChannel : Obligations.DisableFreezesTheChannel := by
  intro s c
  refine ⟨fun _ => congrArg (fun w => [w]) (commandWord_eq_add 0x03 c), exec_of_N_le rfl, fun sl hs => ?_⟩
  have ht := updateSlot_respond_getElem? hs Slot.disable 0
  refine ⟨_, rfl, ht, sameSlotsBut_updateSlot_respond s c _ 0, sameOutsideSlots_updateSlot_respond s c _ 0,
    rfl, rfl, ?again, rfl, ?skip, fun hhigh => ⟨_, rfl, fun now => ?stale⟩⟩
  case again => exact congrArg Host.Outcome.next (updateSlot_respond_again disable_disable s c 0)
  case skip => rw [capture_getElem? ht, slotCapture_of_disabled _ rfl, ht]
  case stale =>
    have hu := updateSlot_respond_getElem? ht Slot.enable 0
    exact capture_widthOf_of_fall (s := State.setTimer _ now) (sl := { sl.disable.enable with level := .low })
      (setLevel_getElem? hu .low) rfl hhigh rfl

/-- Settles O15: by what `lastWidth` reads. -/
theorem lastwidthAnswersTheCommittedWidth : Obligations.LastwidthAnswersTheCommittedWidth := by
  intro s c
  refine ⟨fun _ => congrArg (fun w => [w]) (commandWord_eq_add 0x04 c), fun sl hs => ?_, exec_of_N_le rfl⟩
  rw [exec, execLastwidth, lastWidth_of_slot hs]
  rfl

/-- Settles O11: no command clears the arm bit. -/
theorem initArmsNotification : Obligations.InitArmsNotification := by
  refine ⟨rfl, fun s => ⟨rfl, fun t h => ?_⟩⟩
  cases h
  refine ⟨rfl, Bool.and_true _, fun i u hu => ?_⟩
  obtain hkeep | ⟨_, hset⟩ := exec_notifyArmed hu
  · exact hkeep
  · exact hset

end

section
/-! PROOFS. The commands of the mapper family: when SETMAP accepts and what it stores, what GETCHANNEL answers, and that
a new mapping applies to the width captured before it (spec/41_mapper.md R100, R101, R110). -/

namespace Sys2Proof.Machine

variable {s : State} {c : Nat} {lo hi a b w : Word} {sl : Slot} {v : F32}

/-- The slot with the mapping record `m`, SETMAP's one write to a slot (R100). -/
def Slot.storeMap (m : MappingRecord) (sl : Slot) : Slot := { sl with map := m }

theorem acceptsMapping_iff :
    s.acceptsMapping c lo hi a b = true ↔ c < s.N ∧ lo ≠ hi ∧ f32eq (asf32 a) (asf32 b) = false := by
  simp [State.acceptsMapping, State.valid, degenerateMapping]

theorem exec_setmap_of_accepts (h : s.acceptsMapping c lo hi a b = true) :
    exec (.setmap c lo hi a b) s = .next ((s.updateSlot c (Slot.storeMap ⟨lo, hi, a, b, true⟩)).respond 1) :=
  congrArg Host.Outcome.next (if_pos h)

theorem exec_setmap_of_rejects (h : s.acceptsMapping c lo hi a b ≠ true) :
    exec (.setmap c lo hi a b) s = .next { s with response := some 0 } :=
  congrArg Host.Outcome.next (if_neg h)

/-- SETMAP of a mapping that is not degenerate, on a channel the block has, stores it. -/
theorem exec_setmap_of_slot (hs : s.slots[c]? = some sl) (hraw : lo ≠ hi)
    (hout : f32eq (asf32 a) (asf32 b) = false) :
    exec (.setmap c lo hi a b) s = .next ((s.updateSlot c (Slot.storeMap ⟨lo, hi, a, b, true⟩)).respond 1) :=
  exec_setmap_of_accepts (acceptsMapping_iff.mpr ⟨(List.getElem?_eq_some_iff.mp hs).1, hraw, hout⟩)

/-- SETMAP writes no channel record (R110). -/
theorem exec_setmap_ch (s : State) (c : Nat) (lo hi a b : Word) :
    ∃ t, exec (.setmap c lo hi a b) s = .next t ∧ t.slots.map Slot.ch = s.slots.map Slot.ch := by
  by_cases h : s.acceptsMapping c lo hi a b = true
  · exact ⟨_, exec_setmap_of_accepts h, map_modify_eq fun _ => rfl⟩
  · exact ⟨_, exec_setmap_of_rejects h, rfl⟩

/-- GETCHANNEL writes no channel record (R110). -/
theorem exec_getchannel_ch (s : State) (c : Nat) :
    ∃ t, exec (.getchannel c) s = .next t ∧ t.slots.map Slot.ch = s.slots.map Slot.ch := by
  obtain ⟨w, d, hget⟩ := getChannel_cases s c
  exact ⟨s.getChannel c, rfl, by rw [hget]⟩

theorem respondF32_of_bits32 (h : bits32 v = some w) : s.respondF32 v = s.respond w := by
  simp only [State.respondF32, h]

theorem getChannel_of_mapped (hs : s.slots[c]? = some sl) (hvalid : sl.map.valid = true) :
    s.getChannel c = s.respondF32 (mapEval sl.ch.lastPulseWidth sl.map) := by
  simp only [State.getChannel, hs, if_pos hvalid]

theorem getChannel_of_unmapped (hs : s.slots[c]? = some sl) (hvalid : sl.map.valid = false) :
    s.getChannel c = s.respondUnmapped := by
  simp [State.getChannel, hs, hvalid]

/-- GETCHANNEL answers the encoding of a mapped width that is a number (R101). -/
theorem getChannel_of_bits32 (hs : s.slots[c]? = some sl) (hvalid : sl.map.valid = true)
    (hw : bits32 (mapEval sl.ch.lastPulseWidth sl.map) = some w) : s.getChannel c = s.respond w := by
  rw [getChannel_of_mapped hs hvalid, respondF32_of_bits32 hw]

/-- GETCHANNEL answers the draw `nanResult` for a mapped width that is none (R101). -/
theorem getChannel_of_nan (hs : s.slots[c]? = some sl) (hvalid : sl.map.valid = true)
    (hnan : mapEval sl.ch.lastPulseWidth sl.map = .nan) : s.getChannel c = s.respondNaN := by
  rw [getChannel_of_mapped hs hvalid, hnan]
  rfl

end Sys2Proof.Machine

open Sys2Proof Sys2Proof.Machine

/-- Settles O36: a rejection is what `acceptsMapping` refuses, and an accepted mapping is one slot write. -/
theorem setmapStoresOrRejects : Obligations.SetmapStoresOrRejects := by
  intro s c rawMin rawMax outMin outMax
  refine ⟨fun _ => ?words, fun hreject => ?reject, fun sl hs hraw hout => ?store⟩
  case words => exact congrArg (fun w => [w, rawMin, rawMax, outMin, outMax]) (commandWord_eq_add 0x05 c)
  case reject =>
    refine exec_setmap_of_rejects fun haccept => ?_
    obtain ⟨hc, hraw, hout⟩ := acceptsMapping_iff.mp haccept
    obtain hN | heq | heq := hreject
    · exact Nat.not_lt.mpr hN hc
    · exact hraw heq
    · exact Bool.false_ne_true (hout.symm.trans heq)
  case store =>
    exact ⟨_, exec_setmap_of_slot hs hraw hout, updateSlot_respond_getElem? hs _ 1,
      sameSlotsBut_updateSlot_respond s c _ 1, sameOutsideSlots_updateSlot_respond s c _ 1, rfl, rfl⟩

/-- Settles O37: the four answers of GETCHANNEL, each a response and at most one draw. -/
theorem getchannelAnswersTheMappedWidth : Obligations.GetchannelAnswersTheMappedWidth := by
  intro s c
  refine ⟨fun _ => congrArg (fun w => [w]) (commandWord_eq_add 0x06 c), exec_of_N_le rfl, fun sl hs =>
    ⟨fun hvalid => ⟨s.draws + 1, ?unmapped⟩, fun hvalid w hw => ?number,
      fun hvalid hnan => ⟨nanResult s.draws, s.draws + 1, isNaNPattern_nanPattern _ _, ?nan⟩⟩⟩
  case unmapped => exact congrArg Host.Outcome.next (getChannel_of_unmapped hs hvalid)
  case number => exact congrArg Host.Outcome.next (getChannel_of_bits32 hs hvalid hw)
  case nan => exact congrArg Host.Outcome.next (getChannel_of_nan hs hvalid hnan)

/-- Settles O38: the writes of the two commands, O32 for the CAPTURE step, and GETCHANNEL on the slot SETMAP wrote. -/
theorem mappingAppliesToTheLastWidth : Obligations.MappingAppliesToTheLastWidth := by
  obtain ⟨_, _, hcapture, _⟩ := fieldsHaveTheirOwners
  refine ⟨fun s c lo hi a b => ⟨exec_setmap_ch s c lo hi a b, exec_getchannel_ch s c⟩, hcapture,
    fun s c lo hi a b sl hs hraw hout => ⟨_, _, exec_setmap_of_slot hs hraw hout, rfl, fun w hw => ?_⟩⟩
  have ht := updateSlot_respond_getElem? hs (Slot.storeMap ⟨lo, hi, a, b, true⟩) 1
  rw [getChannel_of_bits32 ht rfl hw, respond_response]

end

section
/-! PROOFS. The conversion of an integer to binary32: exact up to `2^24`, and of the integer's sign, finite and nonzero
for every difference of two words (spec/41_mapper.md R105). -/

namespace Sys2Proof.Machine

variable {num den m : Nat} {v : Int}

/-- A representable magnitude rounds to itself. -/
theorem roundF32_of_isRepresentable (neg : Bool) (h : IsRepresentable m) : roundF32 neg m 1 = .fin neg m := by
  rw [roundF32, roundUnits_of_dvd h.2, if_pos h.1]

/-- A magnitude of one unit or more does not round to zero. -/
theorem roundUnits_ne_zero (hden : 0 < den) (h : den ≤ num) : roundUnits num den ≠ 0 := by
  have hkept : 0 < roundedSignificand num den := by
    obtain hs | hs := Nat.eq_zero_or_pos (ulpShift (num / den))
    · have hle := (roundedSignificand_bounds num hden).1
      rw [hs, Nat.pow_zero, Nat.div_one] at hle
      exact (Nat.div_pos h hden).trans_le hle
    · exact (Nat.two_pow_pos 23).trans_le (le_roundedSignificand hden hs)
  rw [roundUnits_eq]
  exact (Nat.mul_pos hkept (Nat.two_pow_pos _)).ne'

/-- The conversion is exact up to `2^24` (R105). -/
theorem f32_of_natAbs_le (h : v.natAbs ≤ 2 ^ 24) : f32 v = .fin (decide (v < 0)) (2 ^ 149 * v.natAbs) := by
  have hlt : v.natAbs * 2 ^ 149 < f32Overflow :=
    Nat.mul_lt_mul_of_pos_right (h.trans_lt (by decide)) (Nat.two_pow_pos 149)
  exact roundF32_of_isRepresentable _ (Nat.mul_comm _ _ ▸ isRepresentable_mul_pow h hlt)

/-- A nonzero integer of the mapping's range is converted to a nonzero finite value of its sign (R105). -/
theorem f32_of_ne_zero (h : v ≠ 0) (hv : v.natAbs < 2 ^ 32) :
    ∃ units, f32 v = .fin (decide (v < 0)) units ∧ units ≠ 0 := by
  have hpos : 1 ≤ f32Unit * v.natAbs := Nat.mul_pos (Nat.two_pow_pos 149) (Int.natAbs_pos.mpr h)
  obtain ⟨_, hfin⟩ | ⟨hover, _⟩ := roundF32_cases (decide (v < 0)) (f32Unit * v.natAbs) 1
  · exact ⟨_, hfin, roundUnits_ne_zero Nat.one_pos hpos⟩
  · have hlt : 2 ^ 149 * v.natAbs < 2 ^ 149 * 2 ^ 32 := Nat.mul_lt_mul_of_pos_left hv (Nat.two_pow_pos 149)
    have hge : (2 ^ 25 - 1) * 2 ^ 252 * 1 ≤ 2 ^ 149 * v.natAbs :=
      (f32Overflow_le_roundUnits_iff _ Nat.one_pos).mp hover
    omega

end Sys2Proof.Machine

open Sys2Proof.Machine

/-- Settles O41: exact where the magnitude is representable, else one rounding; the two examples by evaluation. -/
theorem integerConversionKeepsSignAndSmallValues : Obligations.IntegerConversionKeepsSignAndSmallValues :=
  ⟨fun _ => f32_of_natAbs_le, fun _ _ => isNearestEven_roundF32 _ _ Nat.one_pos, fun _ => f32_of_ne_zero,
    by decide +kernel, by decide +kernel⟩

end

section
/-! PROOFS. The mapping: its formula, its value at the bounds of the raw domain, and the special values
(spec/41_mapper.md R102 to R104, R108, R109). -/

namespace Sys2Proof.Machine

variable {w : Word} {m : MappingRecord} {sign : Bool} {units x : Nat} {v : F32}

/-- The difference of two distinct words, converted: nonzero, finite and of its sign (R103, R105). -/
theorem f32_word_sub {a b : Word} (h : a ≠ b) :
    ∃ units, f32 ((a.toNat : Int) - b.toNat) = .fin (decide ((a.toNat : Int) - b.toNat < 0)) units ∧ units ≠ 0 := by
  have hne : a.toNat ≠ b.toNat := mt BitVec.eq_of_toNat_eq h
  have ha := a.isLt
  have hb := b.isLt
  exact f32_of_ne_zero (by omega) (by omega)

/-- The sign of a difference of words is their order. -/
theorem decide_word_sub_neg (a b : Word) : decide ((a.toNat : Int) - b.toNat < 0) = decide (a.toNat < b.toNat) :=
  decide_eq_decide.mpr (by omega)

theorem mapA_of_ne (h : w ≠ m.rawMin) :
    ∃ units, mapA w m = .fin (decide (w.toNat < m.rawMin.toNat)) units ∧ units ≠ 0 :=
  decide_word_sub_neg w m.rawMin ▸ f32_word_sub h

theorem mapD_of_ne (h : m.rawMin ≠ m.rawMax) :
    ∃ units, mapD m = .fin (decide (m.rawMax.toNat < m.rawMin.toNat)) units ∧ units ≠ 0 :=
  decide_word_sub_neg m.rawMax m.rawMin ▸ f32_word_sub h.symm

theorem mapA_rawMin (m : MappingRecord) : mapA m.rawMin m = .fin false 0 := by
  rw [mapA, Int.sub_self]
  exact f32_of_natAbs_le (Nat.zero_le _)

theorem mapA_rawMax (m : MappingRecord) : mapA m.rawMax m = mapD m := rfl

theorem f32mul_zero_fin (a b : Bool) (x : Nat) : f32mul (.fin a 0) (.fin b x) = .fin (a ^^ b) 0 := by
  rw [f32mul, Nat.zero_mul, roundF32_zero]

theorem f32mul_fin_inf (a b : Bool) (h : x ≠ 0) : f32mul (.fin a x) (.inf b) = .inf (a ^^ b) := if_neg h

theorem f32div_zero_fin (a b : Bool) (h : x ≠ 0) : f32div (.fin a 0) (.fin b x) = .fin (a != b) 0 := by
  rw [f32div_fin a b 0 h, Nat.mul_zero, roundF32_zero]

theorem signedUnits_zero (a : Bool) : signedUnits a 0 = 0 := by
  cases a <;> rfl

/-- A sum that is not zero is rounded with its own sign. -/
theorem roundSum_signedUnits (bothNegative neg : Bool) (hx : x ≠ 0) :
    roundSum bothNegative (signedUnits neg x) = roundF32 neg x 1 := by
  cases neg with
  | false => simp [roundSum, signedUnits, hx, Int.not_lt.mpr (Int.natCast_nonneg x)]
  | true => simp [roundSum, signedUnits, hx, Nat.pos_of_ne_zero hx]

theorem f32add_zero_zero (a b : Bool) : f32add (.fin a 0) (.fin b 0) = .fin (a && b) 0 := by
  rw [f32add_fin, signedUnits_zero, signedUnits_zero, Int.add_zero, roundSum_zero]

/-- A zero added to a value that is none changes nothing. -/
theorem f32add_zero_fin (a : Bool) (hx : x ≠ 0) (h : IsRepresentable x) :
    f32add (.fin a 0) (.fin sign x) = .fin sign x := by
  rw [f32add_fin, signedUnits_zero, Int.zero_add, roundSum_signedUnits _ _ hx, roundF32_of_isRepresentable sign h]

/-- An infinity added to a value that is no NaN stays, but for the opposite infinity (R108). -/
theorem f32add_inf (hv : v ≠ .nan) : f32add (.inf sign) v = if v = .inf (!sign) then .nan else .inf sign := by
  cases v with
  | nan => exact absurd rfl hv
  | inf b => cases sign <;> cases b <;> rfl
  | fin b y => rfl

theorem mapR_of_outMin_nan (h : asf32 m.outMin = .nan) : mapR m = .nan := by
  rw [mapR, h]
  exact f32add_nan_right _

theorem mapR_of_outMax_nan (h : asf32 m.outMax = .nan) : mapR m = .nan := by
  rw [mapR, h]
  rfl

theorem mapEval_of_mapR_nan (w : Word) (h : mapR m = .nan) : mapEval w m = .nan := by
  rw [mapEval, h, f32mul_nan_right, f32div_nan_left, f32add_nan_left]

/-- At `rawMin` a finite range adds a zero to `outMin` (R109). -/
theorem mapEval_rawMin_of_fin (hraw : m.rawMin ≠ m.rawMax) (hR : mapR m = .fin sign units) :
    ∃ zeroSign, mapEval m.rawMin m = f32add (.fin zeroSign 0) (asf32 m.outMin) := by
  obtain ⟨d, hD, hd⟩ := mapD_of_ne hraw
  exact ⟨_, by rw [mapEval, mapA_rawMin, hR, hD, f32mul_zero_fin, f32div_zero_fin _ _ hd]⟩

/-- At `rawMin` an infinite range is multiplied by zero (R108, R109). -/
theorem mapEval_rawMin_of_inf (hR : mapR m = .inf sign) : mapEval m.rawMin m = .nan := by
  have hP : f32mul (.fin false 0) (.inf sign) = .nan := rfl
  rw [mapEval, mapA_rawMin, hR, hP, f32div_nan_left, f32add_nan_left]

/-- Away from `rawMin` an infinite range gives an infinite quotient, its sign the product of the signs (R108). -/
theorem mapEval_of_inf (hraw : m.rawMin ≠ m.rawMax) (hR : mapR m = .inf sign) (hw : w ≠ m.rawMin) :
    mapEval w m = f32add
      (.inf ((decide (w.toNat < m.rawMin.toNat) != sign) != decide (m.rawMax.toNat < m.rawMin.toNat)))
      (asf32 m.outMin) := by
  obtain ⟨x, hA, hx⟩ := mapA_of_ne hw
  obtain ⟨d, hD, _⟩ := mapD_of_ne hraw
  rw [mapEval, hA, hR, hD, f32mul_fin_inf _ _ hx]
  rfl

end Sys2Proof.Machine

open Sys2Proof Sys2Proof.Machine

/-- Settles O46, by evaluating the mapping at each of the five. -/
theorem mappingExamples : Obligations.MappingExamples :=
  ⟨by decide +kernel, by decide +kernel, by decide +kernel, by decide +kernel, by decide +kernel⟩

/-- Settles O47: the conversions are single roundings, and O40 gives each of the four operations on finite values. -/
theorem mappingFollowsTheFormula : Obligations.MappingFollowsTheFormula := by
  intro w m
  obtain ⟨_, hops⟩ := operationsRoundTheExactResult
  refine ⟨mapA w m, mapD m, mapR m, _, _, rfl, rfl, rfl, rfl, isNearestEven_roundF32 _ _ Nat.one_pos,
    isNearestEven_roundF32 _ _ Nat.one_pos, fun hraw => f32_word_sub hraw.symm, fun hi x lo y hhi hlo => ?range,
    fun na x nr y hA hR => ?product, fun np x nd y hP hD hy => ?quotient, fun nq x lo y hQ hlo => ?sum⟩
  case range =>
    obtain ⟨_, ⟨hround, hzero⟩, _⟩ := hops hi lo x y
    rw [mapR, hhi, hlo]
    exact ⟨hround, fun h => ⟨_, hzero h⟩⟩
  case product =>
    obtain ⟨_, _, hround, _⟩ := hops na nr x y
    rw [hA, hR]
    exact hround
  case quotient =>
    obtain ⟨_, _, _, hround⟩ := hops np nd x y
    rw [hP, hD]
    exact hround hy
  case sum =>
    obtain ⟨⟨hround, hzero⟩, _⟩ := hops nq lo x y
    rw [mapEval, hQ, hlo]
    exact ⟨hround, fun h => ⟨_, hzero h⟩⟩

/-- Settles O44: at `rawMin` a zero is added to `outMin`, or an infinite range multiplied by zero; the values at 1500,
2500 and the one that is not `outMax` are O46's. -/
theorem mappingAtTheBounds : Obligations.MappingAtTheBounds := by
  obtain ⟨hmiddle, hbeyond, _, _, hmax⟩ := mappingExamples
  refine ⟨hmiddle, hbeyond, fun m hraw => ⟨fun neg units hR => ⟨fun sign x hlo hx => ?finite, fun sign hlo => ?zero⟩,
    fun neg => mapEval_rawMin_of_inf, mapEval_of_mapR_nan m.rawMin, by rw [mapEval, mapA_rawMax]⟩,
    ⟨1000, 2000, 0x3E99999A, 0x3DCCCCCD, true⟩, by decide +kernel, fun heq => ?notOutMax⟩
  case finite =>
    obtain ⟨zeroSign, hmin⟩ := mapEval_rawMin_of_fin hraw hR
    rw [hmin, hlo]
    exact f32add_zero_fin zeroSign hx (isRepresentable_of_asf32 hlo).1
  case zero =>
    obtain ⟨zeroSign, hmin⟩ := mapEval_rawMin_of_fin hraw hR
    exact ⟨_, by rw [hmin, hlo, f32add_zero_zero]⟩
  case notOutMax =>
    rw [heq, bits32_asf32 (by decide)] at hmax
    exact absurd hmax (by decide)

/-- Settles O45: a NaN bound makes the range a NaN, an infinite range makes the quotient an infinity, and no NaN
`outMin` leaves the range an infinity. -/
theorem mappingOfSpecialValues : Obligations.MappingOfSpecialValues := by
  intro w m hraw
  refine ⟨fun hnan => mapEval_of_mapR_nan w (hnan.elim mapR_of_outMin_nan mapR_of_outMax_nan),
    fun sign hR hw => ?infinite, fun sign neg x hlo hhi => ?range⟩
  case infinite =>
    have hlo : asf32 m.outMin ≠ .nan := fun hnan => by
      rw [mapR_of_outMin_nan hnan] at hR
      cases hR
    rw [mapEval_of_inf hraw hR hw]
    exact f32add_inf hlo
  case range =>
    rw [mapR, hhi, hlo]
    rfl

end

section
/-! PROOFS. One step among the agents: the scheduled turn or the turn of an agent that can move, what keeps a CAPTURE
step enabled until it is taken, and what a change of a line moves (spec/60_exceptions.md R120, R124 to R127, R140). -/

namespace Sys2Proof.Machine

variable {s t : State} {turn : Turn} {turns : List Turn} {i : Nat} {sl : Slot} {v : Level}

/-! ### The agents' turns -/

theorem captureEnabled_iff : s.captureEnabled = true ↔ s.pending = true ∧ s.notifyArmed = true :=
  Bool.and_eq_true_iff

theorem captureTurn_of_enabled (h : s.captureEnabled = true) : s.captureTurn = s.capture := if_pos h

theorem captureTurn_of_not_enabled (h : ¬ s.captureEnabled = true) : s.captureTurn = s := if_neg h

theorem hostReady_eq_false_iff : s.hostReady = false ↔ decode s.hostIn = .waiting := bne_eq_false_iff_eq

theorem hostTurn_of_waiting (h : decode s.hostIn = .waiting) : s.hostTurn = .next s := by
  rw [State.hostTurn, h]

theorem step_of_turn (h : s.schedule = turn :: turns) :
    step s = State.takeTurn { s with schedule := turns } turn := by
  rw [step, h]

theorem step_of_no_turn (h : s.schedule = []) : step s = s.unscheduledTurn := by
  rw [step, h]

/-- Which agent moves when no turn is scheduled. -/
theorem unscheduledTurn_cases (s : State) :
    (s.captureEnabled = true ∧ s.hostReady = true ∧ s.unscheduledTurn = s.nextDraw.hostTurn) ∨
    (s.captureEnabled = true ∧ s.unscheduledTurn = .next s.nextDraw.drawTimer.capture) ∨
    (s.captureEnabled = false ∧ s.hostReady = true ∧ s.unscheduledTurn = s.hostTurn) ∨
    (s.captureEnabled = false ∧ s.hostReady = false ∧ s.unscheduledTurn = .next s) := by
  unfold State.unscheduledTurn
  split
  next hc =>
    split
    next hboth => exact .inl ⟨hc, (Bool.and_eq_true_iff.mp hboth).1, rfl⟩
    next => exact .inr (.inl ⟨hc, rfl⟩)
  next hc =>
    split
    next hr => exact .inr (.inr (.inl ⟨Bool.eq_false_iff.mpr hc, hr, rfl⟩))
    next hr => exact .inr (.inr (.inr ⟨Bool.eq_false_iff.mpr hc, Bool.eq_false_iff.mpr hr, rfl⟩))

theorem takeTurn_next (s : State) (turn : Turn) : ∃ t, s.takeTurn turn = .next t := by
  cases turn with
  | host => exact hostTurn_next s
  | capture => exact ⟨_, rfl⟩
  | level i v => exact ⟨_, rfl⟩
  | timer now => exact ⟨_, rfl⟩

theorem unscheduledTurn_next (s : State) : ∃ t, s.unscheduledTurn = .next t := by
  obtain ⟨_, _, h⟩ | ⟨_, h⟩ | ⟨_, _, h⟩ | ⟨_, _, h⟩ := unscheduledTurn_cases s <;> rw [h]
  · exact hostTurn_next _
  · exact ⟨_, rfl⟩
  · exact hostTurn_next _
  · exact ⟨_, rfl⟩

theorem step_next (s : State) : ∃ t, step s = .next t := by
  cases hs : s.schedule with
  | nil => rw [step_of_no_turn hs]; exact unscheduledTurn_next s
  | cons turn turns => rw [step_of_turn hs]; exact takeTurn_next _ turn

/-! ### An enabled CAPTURE step stays enabled until it is taken -/

/-- The turns scheduled and the words at the host port: what may come before an enabled CAPTURE step. -/
def State.backlog (s : State) : Nat := s.schedule.length + s.hostIn.length

/-- The host's turn disables no CAPTURE step (R127). -/
theorem hostTurn_captureEnabled (h : s.hostTurn = .next t) (hc : s.captureEnabled = true) :
    t.captureEnabled = true := by
  cases hr : s.hostReady with
  | false =>
    rw [hostTurn_of_waiting (hostReady_eq_false_iff.mp hr)] at h
    cases h
    exact hc
  | true =>
    obtain ⟨hpending, _, _, harmed⟩ := hostTurn_frame h hr
    obtain ⟨hp, ha⟩ := captureEnabled_iff.mp hc
    exact captureEnabled_iff.mpr ⟨hpending.trans hp, harmed ha⟩

theorem hostTurn_backlog_lt (h : s.hostTurn = .next t) (hr : s.hostReady = true) : t.backlog < s.backlog := by
  obtain ⟨_, hsched, hin, _⟩ := hostTurn_frame h hr
  rw [State.backlog, State.backlog, hsched]
  omega

theorem hostTurn_backlog_le (h : s.hostTurn = .next t) : t.backlog ≤ s.backlog := by
  cases hr : s.hostReady with
  | false =>
    rw [hostTurn_of_waiting (hostReady_eq_false_iff.mp hr)] at h
    cases h
    exact Nat.le_refl _
  | true => exact (hostTurn_backlog_lt h hr).le

theorem setLevel_captureEnabled (hc : s.captureEnabled = true) (i : Nat) (v : Level) :
    (s.setLevel i v).captureEnabled = true := by
  obtain ⟨hp, ha⟩ := captureEnabled_iff.mp hc
  exact captureEnabled_iff.mpr ⟨setLevel_pending_of_pending s i v hp, (setLevel_notifyArmed s i v).trans ha⟩

/-- A scheduled turn takes the enabled CAPTURE step or leaves it enabled, adding nothing to the backlog. -/
theorem takeTurn_of_captureEnabled (hc : s.captureEnabled = true) (h : s.takeTurn turn = .next t) :
    (t.pending = false ∧ t.slots = s.slots.map (Slot.capture t.timer)) ∨
      (t.captureEnabled = true ∧ t.backlog ≤ s.backlog) := by
  cases turn with
  | host => exact .inr ⟨hostTurn_captureEnabled h hc, hostTurn_backlog_le h⟩
  | capture =>
    obtain rfl : s.captureTurn = t := Host.Outcome.next.inj h
    rw [captureTurn_of_enabled hc]
    exact .inl ⟨rfl, rfl⟩
  | level i v =>
    obtain rfl : s.setLevel i v = t := Host.Outcome.next.inj h
    exact .inr ⟨setLevel_captureEnabled hc i v, by rw [State.backlog, setLevel_schedule, setLevel_hostIn]; rfl⟩
  | timer now =>
    obtain rfl : s.setTimer now = t := Host.Outcome.next.inj h
    exact .inr ⟨hc, Nat.le_refl _⟩

/-- A step takes the enabled CAPTURE step, or leaves it enabled and the backlog smaller. -/
theorem step_of_captureEnabled (hc : s.captureEnabled = true) (h : step s = .next t) :
    (t.pending = false ∧ t.slots = s.slots.map (Slot.capture t.timer)) ∨
      (t.captureEnabled = true ∧ t.backlog < s.backlog) := by
  cases hs : s.schedule with
  | cons turn turns =>
    rw [step_of_turn hs] at h
    have hshorter : State.backlog { s with schedule := turns } < s.backlog := by
      simp [State.backlog, hs]
    exact (takeTurn_of_captureEnabled (s := { s with schedule := turns }) hc h).imp_right
      fun ⟨htc, hle⟩ => ⟨htc, hle.trans_lt hshorter⟩
  | nil =>
    rw [step_of_no_turn hs] at h
    obtain ⟨_, hr, hu⟩ | ⟨_, hu⟩ | ⟨hn, _, _⟩ | ⟨hn, _, _⟩ := unscheduledTurn_cases s
    · rw [hu] at h
      exact .inr ⟨hostTurn_captureEnabled (s := s.nextDraw) h hc, hostTurn_backlog_lt (s := s.nextDraw) h hr⟩
    · obtain rfl : s.nextDraw.drawTimer.capture = t := Host.Outcome.next.inj (hu.symm.trans h)
      exact .inl ⟨rfl, rfl⟩
    · rw [hc] at hn; cases hn
    · rw [hc] at hn; cases hn

/-- By recursion on the backlog, which every step that does not take the CAPTURE step makes smaller (R126). -/
theorem exists_capture_within_backlog (s : State) (hc : s.captureEnabled = true) :
    ∃ (n : Nat) (u v : State), n ≤ s.backlog ∧ stepsTo n s u ∧ u.captureEnabled = true ∧ step u = .next v ∧
      v.pending = false ∧ v.slots = u.slots.map (Slot.capture v.timer) := by
  obtain ⟨t, ht⟩ := step_next s
  obtain ⟨hpending, hslots⟩ | ⟨htc, hlt⟩ := step_of_captureEnabled hc ht
  · exact ⟨0, s, t, Nat.zero_le _, rfl, hc, ht, hpending, hslots⟩
  · obtain ⟨n, u, v, hn, hsteps, htaken⟩ := exists_capture_within_backlog t htc
    exact ⟨n + 1, u, v, hn.trans_lt hlt, ⟨t, ht, hsteps⟩, htaken⟩
termination_by s.backlog

/-! ### What clears `pending`, and what no step does before INIT -/

/-- A step keeps a set `pending` set, or is an enabled CAPTURE step (R125). -/
theorem step_pending_or_capture (h : step s = .next t) (hs : s.pending = true) :
    t.pending = true ∨ (s.captureEnabled = true ∧
      ∃ turns d now, t = State.capture { s with schedule := turns, draws := d, timer := now }) := by
  obtain ⟨turns, d, now, rfl | ⟨_, _, _, he⟩ | ⟨_, _, _, rfl⟩ | ⟨hc, rfl⟩ | ⟨i, v, rfl⟩⟩ := step_cases h
  · exact .inl hs
  · obtain ⟨_, hpending, _⟩ := exec_frame he
    exact .inl (hpending.trans hs)
  · exact .inl hs
  · exact .inr ⟨hc, turns, d, now, rfl⟩
  · exact .inl (setLevel_pending_of_pending _ i v hs)

theorem map_eq_of_optionRel {α β : Type} {R : α → α → Prop} {f : α → β} {x y : Option α}
    (h : ∀ a b, R a b → f b = f a) (hr : Option.Rel R x y) : y.map f = x.map f := by
  cases hr with
  | some hab => exact congrArg some (h _ _ hab)
  | none => rfl

theorem step_captureFields_of_unarmed (h : step s = .next t) (hs : s.notifyArmed = false) :
    t.captureFields = s.captureFields := by
  apply List.ext_getElem?
  intro i
  rw [State.captureFields, State.captureFields, List.getElem?_map, List.getElem?_map]
  exact map_eq_of_optionRel (fun _ _ hslot => hslot.captureFields_eq_of_unarmed hs) (step_slot h i)

/-- The arm bit is clear after a step only if it was clear before (R33). -/
theorem notifyArmed_eq_false_of_step (h : step s = .next t) (ht : t.notifyArmed = false) : s.notifyArmed = false :=
  Bool.eq_false_iff.mpr fun hs => Bool.eq_false_iff.mp ht (notifyArmedIsSetByInitOnly.1 s t h hs)

/-! ### A change of a line -/

theorem sameSlotsBut_setLevel (s : State) (i : Nat) (v : Level) : SameSlotsBut i s (s.setLevel i v) := by
  obtain h | ⟨_, _, _, h⟩ := setLevel_cases s i v <;> rw [h]
  · exact ⟨rfl, fun _ _ => rfl⟩
  · exact ⟨List.length_modify .., fun _ hj => getElem?_modify_ne hj⟩

/-- Driving a line that is not armed requests nothing (R124). -/
theorem setLevel_pending_of_unmasked (h : s.slots[i]? = some sl) (hmask : sl.mask = false) (v : Level) :
    (s.setLevel i v).pending = s.pending := by
  obtain h' | ⟨sl', hsl', _, h'⟩ := setLevel_cases s i v <;> rw [h']
  obtain rfl : sl = sl' := Option.some.inj (h.symm.trans hsl')
  exact (congrArg (s.pending || ·) hmask).trans (Bool.or_false _)

/-- A line driven back to its level leaves the slots as they were. -/
theorem setLevel_back_slots (h : s.slots[i]? = some sl) (v : Level) :
    ((s.setLevel i v).setLevel i sl.level).slots = s.slots := by
  apply List.ext_getElem?
  intro j
  by_cases hj : j = i
  · rw [hj, setLevel_getElem? (setLevel_getElem? h v) sl.level, h]
  · rw [(sameSlotsBut_setLevel _ i sl.level).2 j hj, (sameSlotsBut_setLevel s i v).2 j hj]

/-! ### Quiescence -/

theorem quiescent_iff : s.quiescent = true ↔ s.hostIn = [] ∧ s.captureEnabled = false := by
  simp [State.quiescent]

/-- With no CAPTURE step enabled and no whole transaction at the port, the agents of the block wait (R60, R140). -/
theorem step_of_waiting (hw : decode s.hostIn = .waiting) (hc : s.captureEnabled = false) (hs : s.schedule = []) :
    step s = .next s := by
  rw [step_of_no_turn hs, State.unscheduledTurn, hc, hostReady_eq_false_iff.mpr hw]
  rfl

end Sys2Proof.Machine

open Sys2Proof Sys2Proof.Machine

/-- Settles O24, by recursion on the turns scheduled and the words at the port. -/
theorem enabledCaptureIsTaken : Obligations.EnabledCaptureIsTaken :=
  exists_capture_within_backlog

/-- Settles O23: the two cases of the engine's turn, and what a step that clears `pending` is. -/
theorem onlyAnEnabledCaptureClearsPending : Obligations.OnlyAnEnabledCaptureClearsPending := by
  refine ⟨fun s turns hs => ⟨fun hboth => ?enabled, fun hnot => ?idle⟩, fun s t h hp ht => ?cleared⟩
  case enabled =>
    rw [step_of_turn hs]
    exact congrArg Host.Outcome.next (captureTurn_of_enabled (captureEnabled_iff.mpr hboth))
  case idle =>
    rw [step_of_turn hs]
    exact congrArg Host.Outcome.next (captureTurn_of_not_enabled (mt captureEnabled_iff.mp hnot))
  case cleared =>
    obtain hkept | ⟨hc, _, _, _, rfl⟩ := step_pending_or_capture h hp
    · exact absurd hkept (Bool.eq_false_iff.mp ht)
    · obtain ⟨_, harmed⟩ := captureEnabled_iff.mp hc
      exact ⟨harmed, rfl, rfl, rfl⟩

/-- Settles O25: a step that cleared `pending` would be a CAPTURE step, which is not enabled before INIT. -/
theorem noCaptureBeforeInit : Obligations.NoCaptureBeforeInit := by
  intro s t h ht
  have hs : s.notifyArmed = false := notifyArmed_eq_false_of_step h ht
  refine ⟨hs, step_captureFields_of_unarmed h hs, fun hp => ?_⟩
  obtain hkept | ⟨hc, _⟩ := step_pending_or_capture h hp
  · exact hkept
  · obtain ⟨_, harmed⟩ := captureEnabled_iff.mp hc
    exact absurd harmed (Bool.eq_false_iff.mp hs)

/-- Settles O22: the frame of a level change, and the line driven back to its level. -/
theorem levelChangeNotifies : Obligations.LevelChangeNotifies := by
  intro s turns i v sl hs hslot hv
  let s₀ : State := { s with schedule := turns }
  replace hslot : s₀.slots[i]? = some sl := hslot
  have hnotified (hmask : sl.mask = true) : (s₀.setLevel i v).pending = true :=
    setLevel_pending_of_mask hslot hmask hv
  exact ⟨s₀.setLevel i v, step_of_turn hs, setLevel_getElem? hslot v, sameSlotsBut_setLevel s₀ i v, hnotified,
    fun hmask => setLevel_pending_of_unmasked hslot hmask v, setLevel_notifyArmed s₀ i v,
    setLevel_timer s₀ i v, setLevel_hostIn s₀ i v, setLevel_response s₀ i v, setLevel_schedule s₀ i v,
    setLevel_draws s₀ i v, setLevel_back_slots hslot v,
    fun hmask => setLevel_pending_of_pending _ i sl.level (hnotified hmask)⟩

/-- Settles O8: no turn ends in a fault or a refusal. -/
theorem everyStepAnswersANextState : Obligations.EveryStepAnswersANextState :=
  step_next

/-- Settles O9: the CAPTURE step leaves the port alone, and the host's turn leaves the request alone. -/
theorem eitherReadyAgentMayComeNext : Obligations.EitherReadyAgentMayComeNext := by
  intro s turns hc hr
  let s₀ : State := { s with schedule := turns }
  refine ⟨⟨?capture, hr⟩, ?transaction, ?request⟩
  case capture => exact congrArg Host.Outcome.next (captureTurn_of_enabled (s := s₀) hc)
  case transaction =>
    obtain ⟨hw, _⟩ | hcommand | hillegal := hostTurn_cases s₀
    · exact absurd (hr.symm.trans (hostReady_eq_false_iff.mpr hw)) nofun
    · exact .inl hcommand
    · exact .inr hillegal
  case request =>
    obtain ⟨t, ht⟩ := hostTurn_next s₀
    exact ⟨t, ht, hostTurn_captureEnabled ht hc⟩

/-- Settles O10: an empty port is one where the host waits, and no turn named enables a CAPTURE step. -/
theorem quiescentStateStays : Obligations.QuiescentStateStays := by
  refine ⟨fun s hq => ?quiescent, fun s hw hin hc => ?begun⟩
  case quiescent =>
    obtain ⟨hin, hc⟩ := quiescent_iff.mp hq
    have hw : decode s.hostIn = .waiting := by rw [hin]; rfl
    refine ⟨step_of_waiting hw hc, fun turns => ⟨fun hs => ?host, fun hs => ?engine, fun now hs => ?timer,
      fun i v sl hs hslot hmask => ?level⟩⟩
    case host => rw [step_of_host hs]; exact hostTurn_of_waiting hw
    case engine =>
      rw [step_of_turn hs]
      exact congrArg Host.Outcome.next (captureTurn_of_not_enabled (Bool.eq_false_iff.mp hc))
    case timer => exact ⟨_, step_of_turn hs, hq⟩
    case level =>
      let s₀ : State := { s with schedule := turns }
      have hpending : (s₀.setLevel i v).pending = s.pending := setLevel_pending_of_unmasked (s := s₀) hslot hmask v
      have hcapture : (s₀.setLevel i v).captureEnabled = false := by
        rw [State.captureEnabled, hpending, setLevel_notifyArmed]
        exact hc
      exact ⟨s₀.setLevel i v, step_of_turn hs, quiescent_iff.mpr ⟨(setLevel_hostIn s₀ i v).trans hin, hcapture⟩⟩
  case begun =>
    refine ⟨Bool.eq_false_iff.mpr fun hq => hin (quiescent_iff.mp hq).1, step_of_waiting hw hc, fun turns hs => ?_⟩
    rw [step_of_host hs]
    exact hostTurn_of_waiting hw

end

section
/-! PROOFS. What the reset state shows to the host: its slots, and the answers of LASTWIDTH and GETCHANNEL
(spec/10_state.md R43; R146). -/

namespace Sys2Proof.Machine

variable {p : Params} {c : Nat}

theorem resetWith_slot_of_lt (h : c < p.N) : (State.resetWith p).slots[c]? = some (Slot.reset p c) := by
  rw [resetWith_slot, if_pos h]

/-- The number of channels is within the bounds of R10, whatever the parameters. -/
theorem paramsN_bounds (p : Params) : 1 ≤ p.N ∧ p.N ≤ 256 :=
  ⟨Nat.le_add_left 1 _, p.lastChannel.isLt⟩

/-- No width is committed at reset, so LASTWIDTH answers 0 for a valid index and for an invalid one alike (R146). -/
theorem lastWidth_resetWith (p : Params) (c : Nat) : (State.resetWith p).lastWidth c = 0 := by
  by_cases hc : c < p.N
  · exact lastWidth_of_slot (resetWith_slot_of_lt hc)
  · exact lastWidth_of_N_le ((resetWith_inv p).slot_count.trans_le (not_lt.mp hc))

/-- No mapping is accepted at reset, so GETCHANNEL of a valid index draws (R146). -/
theorem getChannel_resetWith (h : c < p.N) :
    (State.resetWith p).getChannel c = (State.resetWith p).respondUnmapped :=
  getChannel_of_unmapped (resetWith_slot_of_lt h) rfl

end Sys2Proof.Machine

open Sys2Proof.Machine

/-- Settles O27: every slot is `Slot.reset`, which holds no committed width and no accepted mapping. -/
theorem resetLeavesTheStatedValues : Obligations.ResetLeavesTheStatedValues := by
  intro p
  obtain ⟨hmin, hmax⟩ := paramsN_bounds p
  refine ⟨(resetWith_inv p).slot_count, hmin, hmax,
    fun i hi => ⟨Slot.reset p i, resetWith_slot_of_lt hi, rfl, rfl, rfl, rfl⟩, rfl, rfl, rfl,
    fun c => ⟨⟨_, rfl, ?lastwidth⟩, fun hc => ⟨_, rfl, ?getchannel⟩⟩⟩
  case lastwidth => rw [respond_response, lastWidth_resetWith]
  case getchannel => rw [getChannel_resetWith hc]; rfl

end
